-- ==== Sys2Proof/Word.lean ====
section
/-! DEFINITION. The bit-vector widths of CRC16C: the register, a message byte, the operation word. -/

namespace Sys2Proof

/-- A value of the 16-bit register, of `init_value` and of `crc_out` (R21, R30). -/
abbrev Word := BitVec 16

/-- A message byte, as presented on `data` (R10, R30). -/
abbrev Byte := BitVec 8

/-- The operation word IW: the inputs sampled at one rising edge (R60). -/
abbrev OpWord := BitVec 27

end Sys2Proof
end

