-- ==== Sys2Proof/Config.lean ====
section
/-! DEFINITION. The constants of the block (R10, R33). None is a parameter, and the spec leaves no value
free (R11): the power-on content of the register is "no value" (Machine/State.lean), never a number. -/

namespace Sys2Proof.Config

/-- The reflected polynomial, `POLY` (R2, R10, R33). -/
def poly : Word := 0x8408#16

/-- The normal form of the polynomial (R2, R10); used by the normal-form CRC of R99 only. -/
def normalPoly : Word := 0x1021#16

/-- The default initial value of a message (R2, R10). -/
def defaultInit : Word := 0xFFFF#16

/-- What RESET leaves in the register (R31, R88; decision D6). -/
def resetValue : Word := 0xFFFF#16

/-- Bits consumed by one FEED (R10, R81). -/
def bitsPerByte : Nat := 8

end Sys2Proof.Config
end

