-- ==== Sys2Proof/Syntax.lean ====
section
/-! DEFINITION. Syntax: the five operations, the input levels of one clock edge, what the host does from
outside, and the lines of the spec's textual form. -/

namespace Sys2Proof

/-- An operation of the block: one constructor per row of spec/opcode_table.json (R62, R67). Operands are
taken from the operation word without extension or transformation (R63). -/
inductive Instr where
  /-- NOP: hold (R84). -/
  | nop
  /-- FEED: take one message byte (R86). -/
  | feed (data : Byte)
  /-- LOAD: start a message with a chosen initial value (R85). -/
  | load (initValue : Word)
  /-- LOAD_FEED: start a message and take its first byte (R87). -/
  | loadFeed (initValue : Word) (data : Byte)
  /-- RESET: the register returns to its reset value (R88). -/
  | reset
deriving DecidableEq, Repr

/-- The levels of one input port at a clock edge (R30). Bit i of `unclean` set says that bit i is no clean
0 or 1 (unknown, floating or metastable, R166, I3); bit i of `level` is its level where it is clean. -/
structure Port (w : Nat) where
  level : BitVec w
  unclean : BitVec w
deriving DecidableEq, Repr

/-- The input ports at one rising edge of `clk` (R30), in the order in which R60 joins them. -/
structure Pins where
  rst : Port 1
  initLoad : Port 1
  dataValid : Port 1
  initValue : Port 16
  data : Port 8
deriving DecidableEq, Repr

/-- What the world outside does to the block (R30, R68, R131, R153). No action at all is a stopped clock. -/
inductive HostAction where
  /-- A rising clock edge with these input levels (R60). -/
  | edge (pins : Pins)
  /-- READ: the host samples `crc_out` (R68, R93). -/
  | read
  /-- EXPECT: a read whose value the host asserts (R68). -/
  | expect (value : Word)
  /-- Power is lost and returns (R153, I9). -/
  | powerCycle
deriving DecidableEq, Repr

/-- One read of `crc_out` as the host recorded it (R93): the value, and the value EXPECT asserted, if any. -/
structure Observation where
  value : Word
  expected : Option Word
deriving DecidableEq, Repr

/-- The two errors of the host's hex decoder (R122, R123, R141): named, not numbered. -/
inductive HostError where
  /-- The stripped text has an odd number of characters (R122). -/
  | invalidLengthError
  /-- The stripped text has a character that is no ASCII hex digit (R123). -/
  | invalidCharacterError
deriving DecidableEq, Repr

/-- A line of the spec's textual form: operations and host actions (R68), pseudo-operations (R69).
Literals are numbers as written; WellFormed.lean refuses those out of range. -/
inductive Line where
  | nop
  | reset
  | load (init : Nat)
  | feed (byte : Nat)
  | loadFeed (init byte : Nat)
  | read
  | expect (value : Nat)
  | crc (init : Nat) (bytes : List Nat)
  | crcq (init : Nat) (bytes : List Nat)
  | msg (init : Nat) (text : List Char)
  | wait (count : Nat)
deriving DecidableEq, Repr

/-- Why a line of the textual form is refused. -/
inductive LineError where
  /-- A literal out of range (R68). -/
  | outOfRange
  /-- CRCQ without a byte, which R69 gives no expansion. -/
  | noByte
  /-- MSG with a text that the hex decoder refuses (R69, R127). -/
  | hostError (e : HostError)
deriving DecidableEq, Repr

end Sys2Proof
end

