-- ==== Sys2Proof/Machine/State.lean ====
section
/-! DEFINITION. The machine's state, its fault and refusal reasons, its state after RESET and at power-on. -/

namespace Sys2Proof.Machine

/-- The one fault of the spec (R141). The block itself raises nothing (R140): the model records this fault
in `State.fault` and the run goes on (R143, program P4), so no step ends in it. -/
inductive Fault where
  /-- `Fault(UndefinedCrc)`: the host sampled `crc_out` while the register held no value. Raised by
  `sampleCrcOut`, recorded by a READ or EXPECT. Safe: no value is invented for the read (R143). -/
  | undefinedCrc
deriving DecidableEq, Repr

/-- Why a step has no meaning. -/
inductive Refusal where
  /-- An operation that has no meaning yet; raised by no arm of `exec`. Safe: the run stops. -/
  | notModelled (mnemonic : String)
  /-- A clock edge whose operation word has a bit that is no clean 0 or 1; raised by `clockEdge` (R166,
  I3). Safe: the run stops and no value is given to the bit. -/
  | uncleanInput
deriving DecidableEq, Repr

/-- The state of one instance of the block, and of the run around it.
`crc` is the spec's register, and `none` is its "no value" (R11, R32): the model-only bit `defined` is
whether `crc` holds a value (`State.defined`). `fault` is the recorded fault (R143). `pending` (what the
host does next, oldest first) and `observed` (what it has read, oldest first) are the model's own. -/
structure State where
  crc : Option Word
  fault : Option Fault
  pending : List HostAction
  observed : List Observation
deriving DecidableEq, Repr

/-- The machine right after RESET: `crc` = 0xFFFF and `defined` = 1 (R31). DESIGN CHOICE: no fault is
recorded, nothing is read and no host action is waiting. -/
def State.reset : State where
  crc := some Config.resetValue
  fault := none
  pending := []
  observed := []

/-- The machine at power-on, before any RESET, LOAD or LOAD_FEED: the register holds no value (R32, R161). -/
def State.powerOn : State where
  crc := none
  fault := none
  pending := []
  observed := []

end Sys2Proof.Machine
end

