-- ==== Sys2Proof/Machine/Flags.lean ====
section
/-! DEFINITION. The block has no status flag, condition code or status output (R28), so no operation computes
one. The one status bit of the spec is the model-only bit `defined` (R32). -/

namespace Sys2Proof.Machine

/-- The model-only bit `defined` (R20, R32): the register holds a value. -/
def State.defined (s : State) : Bool := s.crc.isSome

end Sys2Proof.Machine
end

