-- ==== Sys2Proof/WellFormed.lean ====
section
/-! DEFINITION. Well-formedness. Every value of `Instr` is a legal operation, since its operands have
exactly their ports' widths (R63, R65); what can be ill-formed is a port with an unclean bit (R166) and a
line of the textual form (R68, R69). -/

namespace Sys2Proof

/-- No encoding is illegal and every operand value is legal (R65, R85): the widths say it all. -/
def Instr.wellFormed : Instr → Bool
  | .nop => true
  | .feed _ => true
  | .load _ => true
  | .loadFeed _ _ => true
  | .reset => true

/-- Every bit of the port is a clean 0 or 1 (R166). -/
def Port.clean {w : Nat} (p : Port w) : Bool := p.unclean == 0#w

/-- Every bit of every port is a clean 0 or 1, the ports an operation ignores among them (R166). -/
def Pins.clean (p : Pins) : Bool :=
  p.rst.clean && p.initLoad.clean && p.dataValid.clean && p.initValue.clean && p.data.clean

/-- An edge has clean inputs (R166); the other actions carry nothing to check. -/
def HostAction.wellFormed : HostAction → Bool
  | .edge p => p.clean
  | .read => true
  | .expect _ => true
  | .powerCycle => true

/-- `<init16>` is 0x0000 to 0xFFFF (R68). -/
def isInit16 (n : Nat) : Bool := n < 0x10000

/-- `<byte>` is 0x00 to 0xFF (R68). -/
def isByte (n : Nat) : Bool := n < 0x100

/-- The line's literals are in range (R68). -/
def Line.inRange : Line → Bool
  | .nop => true
  | .reset => true
  | .load init => isInit16 init
  | .feed byte => isByte byte
  | .loadFeed init byte => isInit16 init && isByte byte
  | .read => true
  | .expect value => isInit16 value
  | .crc init bytes => isInit16 init && bytes.all isByte
  | .crcq init bytes => isInit16 init && bytes.all isByte
  | .msg init _ => isInit16 init
  | .wait _ => true

/-- CRCQ has at least one byte (R69, "n >= 1"). -/
def Line.hasItsByte : Line → Bool
  | .crcq _ bytes => !bytes.isEmpty
  | .nop => true
  | .reset => true
  | .load _ => true
  | .feed _ => true
  | .loadFeed _ _ => true
  | .read => true
  | .expect _ => true
  | .crc _ _ => true
  | .msg _ _ => true
  | .wait _ => true

/-- The line is one of the forms of R68 and R69. Whether the text of a MSG decodes is the decoder's to say. -/
def Line.wellFormed (l : Line) : Bool := l.inRange && l.hasItsByte

end Sys2Proof
end

