-- ==== Sys2Proof/Decode.lean ====
section
/-! DEFINITION. The operation word: its fields (R61), its decoding (R62), the opcode map (R67) and the
encoder (R60, R68). -/

namespace Sys2Proof

/-- Field `rst`, IW[26] (R61). -/
def OpWord.rst (w : OpWord) : Bool := w.getLsbD 26

/-- Fields `init_load` and `data_valid`, IW[25:24] (R61). -/
def OpWord.controls (w : OpWord) : BitVec 2 := w.extractLsb' 24 2

/-- Field `init_value`, IW[23:8] (R61). -/
def OpWord.initValue (w : OpWord) : Word := w.extractLsb' 8 16

/-- Field `data`, IW[7:0] (R61). -/
def OpWord.data (w : OpWord) : Byte := w.extractLsb' 0 8

/-- The operation an operation word selects (R62): reset first, then the two control bits. Total (R65). -/
def decode (w : OpWord) : Instr :=
  if OpWord.rst w then .reset
  else if OpWord.controls w = 0b11#2 then .loadFeed (OpWord.initValue w) (OpWord.data w)
  else if OpWord.controls w = 0b10#2 then .load (OpWord.initValue w)
  else if OpWord.controls w = 0b01#2 then .feed (OpWord.data w)
  else .nop

/-- Why a number is no operation word. -/
inductive DecodeError where
  /-- It has a bit above bit 26 (R60: an operation word has 27 bits, and no other format exists). -/
  | widerThanOpWord
deriving DecidableEq, Repr

/-- Decoding of a number given as the bits of an instruction, bit 0 the least significant (R60). -/
def decodeNat (w : Nat) : Except DecodeError Instr :=
  if w < 2 ^ 27 then .ok (decode (BitVec.ofNat 27 w)) else .error .widerThanOpWord

/-- The decoding of a word numbered as spec/opcode_table.json numbers it: bits from `nbits` up are 0. -/
def decodeTableWord (nbits w : Nat) : Option Instr :=
  match decodeNat (w % 2 ^ nbits) with
  | .ok i => some i
  | .error _ => none

/-- The operation word of an operation, every ignored field written as 0 (R60, R68). -/
def encode : Instr → OpWord
  | .nop => 0b000#3 ++ 0#16 ++ 0#8
  | .feed d => 0b001#3 ++ 0#16 ++ d
  | .load v => 0b010#3 ++ v ++ 0#8
  | .loadFeed v d => 0b011#3 ++ v ++ d
  | .reset => 0b100#3 ++ 0#16 ++ 0#8

/-- The rows of the opcode map (R67), by name. -/
inductive Op where
  | NOP
  | FEED
  | LOAD
  | LOAD_FEED
  | RESET
deriving DecidableEq, Repr

/-- One row of the opcode map: the words `w` with `w & mask = pattern`, the row's `match` (R67). -/
structure OpcodeRow where
  op : Op
  pattern : OpWord
  mask : OpWord
deriving DecidableEq, Repr

/-- The opcode map, row by row (R67). -/
def opcodeMap : List OpcodeRow :=
  [ ⟨.NOP, 0x0000000#27, 0x7000000#27⟩,
    ⟨.FEED, 0x1000000#27, 0x7000000#27⟩,
    ⟨.LOAD, 0x2000000#27, 0x7000000#27⟩,
    ⟨.LOAD_FEED, 0x3000000#27, 0x7000000#27⟩,
    ⟨.RESET, 0x4000000#27, 0x4000000#27⟩ ]

/-- An operation word selects a row (R67). -/
def OpcodeRow.selects (r : OpcodeRow) (w : OpWord) : Bool := w &&& r.mask == r.pattern

/-- The row's name of an operation. -/
def Instr.op : Instr → Op
  | .nop => .NOP
  | .feed _ => .FEED
  | .load _ => .LOAD
  | .loadFeed _ _ => .LOAD_FEED
  | .reset => .RESET

/-- The bits of an operation word that the operation reads: the `0`, `1`, `i` and `d` of its pattern, and
not the ignored `x` (R64, R67). -/
def usedBits : Instr → OpWord
  | .nop => 0x7000000#27
  | .feed _ => 0x70000FF#27
  | .load _ => 0x7FFFF00#27
  | .loadFeed _ _ => 0x7FFFFFF#27
  | .reset => 0x4000000#27

/-- The operation starts a message (R162): RESET, LOAD and LOAD_FEED, which make the register defined (R32). -/
def Instr.startsMessage : Instr → Bool
  | .nop => false
  | .feed _ => false
  | .load _ => true
  | .loadFeed _ _ => true
  | .reset => true

end Sys2Proof
end

