-- ==== Sys2Proof/Machine/Operands.lean ====
section
/-! DEFINITION. Sampling the input ports into the operation word (R60, R166), and driving them with one. -/

namespace Sys2Proof.Machine

/-- The value of a port, if every bit of it is a clean 0 or 1 (R166). -/
def samplePort {w : Nat} (p : Port w) : Option (BitVec w) :=
  if p.clean then some p.level else none

/-- The operation word of an edge, `rst` its most significant bit and `data` its least significant byte
(R60); none if any bit is not a clean 0 or 1 (R166). -/
def samplePins (p : Pins) : Option OpWord :=
  match samplePort p.rst, samplePort p.initLoad, samplePort p.dataValid, samplePort p.initValue,
    samplePort p.data with
  | some r, some l, some v, some i, some d => some (r ++ l ++ v ++ i ++ d)
  | _, _, _, _, _ => none

/-- A port driven with a clean value. -/
def drivePort {w : Nat} (v : BitVec w) : Port w := ⟨v, 0#w⟩

/-- The ports driven with the bits of an operation word (R61). -/
def drivePins (w : OpWord) : Pins where
  rst := drivePort (w.extractLsb' 26 1)
  initLoad := drivePort (w.extractLsb' 25 1)
  dataValid := drivePort (w.extractLsb' 24 1)
  initValue := drivePort (w.extractLsb' 8 16)
  data := drivePort (w.extractLsb' 0 8)

/-- The host's action for an operation: an edge with the operation's word on the ports (R68). -/
def issueOp (i : Instr) : HostAction := .edge (drivePins (encode i))

end Sys2Proof.Machine
end

