-- ==== Sys2Proof/Machine/Ops.lean ====
section
/-! DEFINITION. The named operations: the bit step, the byte step and the source's `compute`; writing the
register, sampling `crc_out` and recording a fault. The block takes no exception and returns from none
(R140, R145, R146). -/

namespace Sys2Proof.Machine

/-- The bit step (R80). -/
def step1 (r : Word) (b : Bool) : Word :=
  let mix := (r.getLsbD 0) ^^ b
  if mix then (r >>> 1) ^^^ Config.poly else r >>> 1

/-- The register after the first `k` bit steps over the byte `d`, bit 0 of `d` first (R81). -/
def bitSteps (k : Nat) (r : Word) (d : Byte) : Word :=
  match k with
  | 0 => r
  | k + 1 => step1 (bitSteps k r d) (d.getLsbD k)

/-- The byte step: eight bit steps, bit 0 of the byte first and bit 7 last (R42, R81). -/
def step8 (r : Word) (d : Byte) : Word := bitSteps Config.bitsPerByte r d

/-- The source's function over a whole message, in sequence order (R41, R89). -/
def compute (data : List Byte) (initial : Word := Config.defaultInit) : Word :=
  data.foldl step8 initial

/-- Writing the register, which makes it defined (R32). -/
def State.writeCrc (v : Word) (s : State) : State := { s with crc := some v }

/-- The byte step on the register; a register without a value stays without one (R32, R86). -/
def State.feedCrc (d : Byte) (s : State) : State := { s with crc := s.crc.map (step8 · d) }

/-- The output `crc_out`: the register, bit for bit (R24, R45); without a value a read faults (R32, R143). -/
def sampleCrcOut (s : State) : Except Fault Word :=
  match s.crc with
  | some v => .ok v
  | none => .error .undefinedCrc

/-- Recording a fault (R14, R143); nothing ever clears it. -/
def State.recordFault (f : Fault) (s : State) : State := { s with fault := some f }

/-- The host keeps what it has read (R93). -/
def State.recordRead (o : Observation) (s : State) : State := { s with observed := s.observed ++ [o] }

/-- The register loses its value (R153, I9). -/
def State.losePower (s : State) : State := { s with crc := none }

end Sys2Proof.Machine
end

