-- ==== Sys2Proof/Machine/CrcOps.lean ====
section
/-! DEFINITION. The meanings of the five operations (R84 to R88). None writes a flag and none raises
anything (R28, R140). -/

namespace Sys2Proof.Machine

/-- NOP (R84): `crc <- crc; defined <- defined`. -/
def execNop (s : State) : Host.Outcome State Fault Refusal := .next s

/-- FEED (R86): `if defined == 1 then crc <- step8(crc, data)`. -/
def execFeed (data : Byte) (s : State) : Host.Outcome State Fault Refusal := .next (s.feedCrc data)

/-- LOAD (R85): `crc <- init_value; defined <- 1`. -/
def execLoad (initValue : Word) (s : State) : Host.Outcome State Fault Refusal :=
  .next (s.writeCrc initValue)

/-- LOAD_FEED (R87): `crc <- step8(init_value, data); defined <- 1`. -/
def execLoadFeed (initValue : Word) (data : Byte) (s : State) : Host.Outcome State Fault Refusal :=
  .next (s.writeCrc (step8 initValue data))

/-- RESET (R88): `crc <- 0xFFFF; defined <- 1`. -/
def execReset (s : State) : Host.Outcome State Fault Refusal := .next (s.writeCrc Config.resetValue)

end Sys2Proof.Machine
end

