-- ==== Sys2Proof/Machine/Dispatch.lean ====
section
/-! DEFINITION. One arm per operation. -/

namespace Sys2Proof.Machine

def exec (i : Instr) (s : State) : Host.Outcome State Fault Refusal :=
  match i with
  | .nop => Sys2Proof.Machine.execNop s
  | .feed d => Sys2Proof.Machine.execFeed d s
  | .load v => Sys2Proof.Machine.execLoad v s
  | .loadFeed v d => Sys2Proof.Machine.execLoadFeed v d s
  | .reset => Sys2Proof.Machine.execReset s

end Sys2Proof.Machine
end

