-- ==== Sys2Proof/Machine/HostActions.lean ====
section
/-! DEFINITION. What each action of the host does to the machine. -/

namespace Sys2Proof.Machine

/-- A rising clock edge: the ports are sampled and the operation they select is performed (R60, R62); an
operation word with an unclean bit is refused (R166). -/
def clockEdge (p : Pins) (s : State) : Host.Outcome State Fault Refusal :=
  match samplePins p with
  | some w => exec (decode w) s
  | none => .refused .uncleanInput

/-- Sampling `crc_out` (READ, or EXPECT with the value it asserts): the host keeps the value; where the
register holds none, the fault is recorded and the run goes on (R68, R93, R143, program P4). -/
def readCrcOut (expected : Option Word) (s : State) : Host.Outcome State Fault Refusal :=
  match sampleCrcOut s with
  | .ok v => .next (s.recordRead ⟨v, expected⟩)
  | .error f => .next (s.recordFault f)

/-- Power is lost and returns: the register is as at power-on (R153, I9). -/
def cyclePower (s : State) : Host.Outcome State Fault Refusal := .next s.losePower

/-- No clock edge and no other action: `crc` holds its value, as under NOP (R153). -/
def stoppedClock (s : State) : Host.Outcome State Fault Refusal := .next s

/-- One action of the host. -/
def perform (a : HostAction) (s : State) : Host.Outcome State Fault Refusal :=
  match a with
  | .edge p => clockEdge p s
  | .read => readCrcOut none s
  | .expect v => readCrcOut (some v) s
  | .powerCycle => cyclePower s

/-- The next edge samples this operation word (bits above bit 26 are no part of one, R60). -/
def State.presentWord (w : Nat) (s : State) : State :=
  { s with pending := .edge (drivePins (BitVec.ofNat 27 w)) :: s.pending }

end Sys2Proof.Machine
end

