-- ==== Sys2Proof/Machine/Step.lean ====
section
/-! DEFINITION. One step of the machine: the oldest pending action of the host (R50: in order, one at a time). -/

namespace Sys2Proof.Machine

/-- One step: the host's oldest pending action is taken and performed; with none, the clock stands still
(R50, R153). -/
def step (s : State) : Host.Outcome State Fault Refusal :=
  match s.pending with
  | [] => stoppedClock s
  | a :: rest => perform a { s with pending := rest }

/-- The block fetches nothing (R27): the host presents the operation word, so the word stands on the ports
at the next edge. The low `nbits` bits of `w` are the word; the rest are 0. -/
def State.withFetchWord (s : State) (nbits w : Nat) : State := s.presentWord (w % 2 ^ nbits)

end Sys2Proof.Machine
end

