-- ==== Sys2Proof/Machine/HexDecoder.lean ====
section
/-! DEFINITION. The host's hex-text decoder (R120 to R129): outside the block, run before a transaction. -/

namespace Sys2Proof.Machine

/-- Space, tab and newline, the only characters that are stripped (R121). -/
def isStripped (c : Char) : Bool := c == ' ' || c == '\t' || c == '\n'

/-- The text without the stripped characters, wherever they stood (R121). -/
def strip (text : List Char) : List Char := text.filter (fun c => !isStripped c)

/-- The 4-bit value of an ASCII hex digit of either case; none for any other character (R123, R129). -/
def hexVal? (c : Char) : Option (BitVec 4) :=
  if '0'.toNat ≤ c.toNat ∧ c.toNat ≤ '9'.toNat then some (BitVec.ofNat 4 (c.toNat - '0'.toNat))
  else if 'a'.toNat ≤ c.toNat ∧ c.toNat ≤ 'f'.toNat then some (BitVec.ofNat 4 (c.toNat - 'a'.toNat + 10))
  else if 'A'.toNat ≤ c.toNat ∧ c.toNat ≤ 'F'.toNat then some (BitVec.ofNat 4 (c.toNat - 'A'.toNat + 10))
  else none

/-- One of the ASCII characters `0`-`9`, `a`-`f`, `A`-`F` (R123). -/
def isHexChar (c : Char) : Bool := (hexVal? c).isSome

/-- Nibbles joined in pairs, the first of each pair the most significant (R43, R125). -/
def assembleBytes : List (BitVec 4) → List Byte
  | hi :: lo :: rest => (hi ++ lo) :: assembleBytes rest
  | _ => []

/-- The decoder (R129): strip, check the length, then the characters, then assemble (R121 to R126). -/
def hexDecode (text : List Char) : Except HostError (List Byte) :=
  let s := strip text
  if s.length % 2 = 1 then .error .invalidLengthError
  else if s.all isHexChar then .ok (assembleBytes (s.filterMap hexVal?))
  else .error .invalidCharacterError

end Sys2Proof.Machine
end

