-- ==== Sys2Proof/Machine/Assembler.lean ====
section
/-! DEFINITION. The spec's textual form (R68) and its pseudo-operations (R69): from a line to the host
actions it stands for, from text to a line, and from an operation or a result to text. -/

namespace Sys2Proof.Machine

/-! ## Expansion -/

/-- `CRC init, b0, ..., b(n-1)`: LOAD, then one FEED per byte (R69). -/
def crcOps (init : Word) (data : List Byte) : List Instr := .load init :: data.map .feed

/-- `CRCQ init, b0, ..., b(n-1)`: LOAD_FEED with the first byte, then one FEED per later byte (R69). -/
def crcqOps (init : Word) (first : Byte) (later : List Byte) : List Instr :=
  .loadFeed init first :: later.map .feed

/-- A literal that is in range as a byte. -/
def toByte (n : Nat) : Byte := BitVec.ofNat 8 n

/-- A literal that is in range as a 16-bit value. -/
def toWord (n : Nat) : Word := BitVec.ofNat 16 n

/-- The host actions a line stands for, each operation with its word formed by `encode` (R68, R69); a line
out of range, a CRCQ without a byte and a MSG whose text does not decode are refused. -/
def expandLine (l : Line) : Except LineError (List HostAction) :=
  if l.inRange = false then .error .outOfRange
  else
    match l with
    | .nop => .ok [issueOp .nop]
    | .reset => .ok [issueOp .reset]
    | .load init => .ok [issueOp (.load (toWord init))]
    | .feed byte => .ok [issueOp (.feed (toByte byte))]
    | .loadFeed init byte => .ok [issueOp (.loadFeed (toWord init) (toByte byte))]
    | .read => .ok [.read]
    | .expect value => .ok [.expect (toWord value)]
    | .crc init bytes => .ok ((crcOps (toWord init) (bytes.map toByte)).map issueOp)
    | .crcq _ [] => .error .noByte
    | .crcq init (b :: bs) => .ok ((crcqOps (toWord init) (toByte b) (bs.map toByte)).map issueOp)
    | .msg init text =>
      match hexDecode text with
      | .ok data => .ok ((crcOps (toWord init) data).map issueOp)
      | .error e => .error (.hostError e)
    | .wait count => .ok (List.replicate count (issueOp .nop))

/-- The host issues a line: its actions wait behind those already pending; a refused line issues none
(R69, R127). -/
def State.issueLine (s : State) (l : Line) : State :=
  match expandLine l with
  | .ok actions => { s with pending := s.pending ++ actions }
  | .error _ => s

/-! ## From an operation or a result to text -/

/-- An uppercase hex digit. -/
def hexDigit (n : BitVec 4) : Char :=
  if n.toNat < 10 then Char.ofNat ('0'.toNat + n.toNat) else Char.ofNat ('A'.toNat + (n.toNat - 10))

/-- A byte as two uppercase hex digits, the most significant nibble first (R43). -/
def hex2 (b : Byte) : List Char := [hexDigit (b.extractLsb' 4 4), hexDigit (b.extractLsb' 0 4)]

/-- A 16-bit value as four uppercase hex digits, most significant first (R45, R130). -/
def hex4 (v : Word) : List Char := hex2 (v.extractLsb' 8 8) ++ hex2 (v.extractLsb' 0 8)

/-- Bytes as hex text without separators. -/
def hexText (data : List Byte) : List Char := data.flatMap hex2

/-- An operation as one line of the textual form (R68). -/
def printOp : Instr → List Char
  | .nop => ['N', 'O', 'P']
  | .feed d => ['F', 'E', 'E', 'D', ' ', '0', 'x'] ++ hex2 d
  | .load v => ['L', 'O', 'A', 'D', ' ', '0', 'x'] ++ hex4 v
  | .loadFeed v d => ['L', 'O', 'A', 'D', '_', 'F', 'E', 'E', 'D', ' ', '0', 'x'] ++ hex4 v ++ [',', ' ', '0', 'x'] ++ hex2 d
  | .reset => ['R', 'E', 'S', 'E', 'T']

/-! ## From text to a line -/

/-- The text without spaces at its two ends. -/
def trimSpaces (cs : List Char) : List Char :=
  ((cs.dropWhile (· == ' ')).reverse.dropWhile (· == ' ')).reverse

/-- The parts of a text between commas. -/
def splitCommas : List Char → List (List Char)
  | [] => [[]]
  | c :: cs =>
    match splitCommas cs with
    | [] => [[c]]
    | part :: parts => if c == ',' then [] :: part :: parts else (c :: part) :: parts

/-- The value of a run of hex digits that follows digits of value `acc`. -/
def readHexDigits (acc : Nat) : List Char → Option Nat
  | [] => some acc
  | c :: cs =>
    match hexVal? c with
    | some v => readHexDigits (16 * acc + v.toNat) cs
    | none => none

/-- A hexadecimal literal, `0x` and at least one digit (R68). -/
def readLiteral : List Char → Option Nat
  | '0' :: 'x' :: c :: cs => readHexDigits 0 (c :: cs)
  | _ => none

/-- Literals of all parts, or none if some part is no literal. -/
def readLiterals : List (List Char) → Option (List Nat)
  | [] => some []
  | part :: parts =>
    match readLiteral (trimSpaces part), readLiterals parts with
    | some n, some ns => some (n :: ns)
    | _, _ => none

/-- The operands after a mnemonic, separated by commas (R68). -/
def readOperands (cs : List Char) : Option (List Nat) :=
  if trimSpaces cs = [] then some [] else readLiterals (splitCommas cs)

/-- The text between a first and a last double quote. -/
def readQuoted (cs : List Char) : Option (List Char) :=
  match trimSpaces cs with
  | '"' :: rest =>
    match rest.reverse with
    | '"' :: inside => some inside.reverse
    | _ => none
  | _ => none

/-- The operands of MSG: an initial value, a comma, a quoted text (R69). -/
def readMsg (cs : List Char) : Option Line :=
  match readLiteral (trimSpaces (cs.takeWhile (· != ','))),
    readQuoted ((cs.dropWhile (· != ',')).drop 1) with
  | some init, some text => some (.msg init text)
  | _, _ => none

/-- A mnemonic with its operands (R68, R69). -/
def lineOf (mnemonic : List Char) (operands : List Nat) : Option Line :=
  match operands with
  | [] =>
    if mnemonic = ['N', 'O', 'P'] then some .nop
    else if mnemonic = ['R', 'E', 'S', 'E', 'T'] then some .reset
    else if mnemonic = ['R', 'E', 'A', 'D'] then some .read
    else none
  | a :: rest =>
    if mnemonic = ['C', 'R', 'C'] then some (.crc a rest)
    else if mnemonic = ['C', 'R', 'C', 'Q'] then some (.crcq a rest)
    else
      match rest with
      | [] =>
        if mnemonic = ['L', 'O', 'A', 'D'] then some (.load a)
        else if mnemonic = ['F', 'E', 'E', 'D'] then some (.feed a)
        else if mnemonic = ['E', 'X', 'P', 'E', 'C', 'T'] then some (.expect a)
        else if mnemonic = ['W', 'A', 'I', 'T'] then some (.wait a)
        else none
      | [b] => if mnemonic = ['L', 'O', 'A', 'D', '_', 'F', 'E', 'E', 'D'] then some (.loadFeed a b) else none
      | _ => none

/-- A line of text as a line of the textual form (R68, R69); none if it has no such form. -/
def parseLine (text : List Char) : Option Line :=
  let t := trimSpaces text
  let mnemonic := t.takeWhile (· != ' ')
  let operands := t.dropWhile (· != ' ')
  if mnemonic = ['M', 'S', 'G'] then readMsg operands
  else (readOperands operands).bind (lineOf mnemonic)

/-- The line that stands for an operation. -/
def lineOfOp : Instr → Line
  | .nop => .nop
  | .feed d => .feed d.toNat
  | .load v => .load v.toNat
  | .loadFeed v d => .loadFeed v.toNat d.toNat
  | .reset => .reset

end Sys2Proof.Machine
end

