-- ==== Sys2Proof/Machine/Instances.lean ====
section
/-! DEFINITION. Several instances of the block side by side: each has its own state and its own host, and
they share nothing (R34, R151). -/

namespace Sys2Proof.Machine

/-- Instance `k` takes one step and every other instance stays as it is (R34). A number that names no
instance names no agent, and nothing happens. -/
def stepInstance (k : Nat) (system : List State) : Host.Outcome (List State) Fault Refusal :=
  match system[k]? with
  | none => .next system
  | some s =>
    match step s with
    | .next s' => .next (system.set k s')
    | .fault f => .fault f
    | .refused r => .refused r

end Sys2Proof.Machine
end

