-- ==== Sys2Proof/Safety.lean ====
section
/-! DEFINITION. What a run is, when it ends validly (R93, R143), and the host's duties that keep the fault and
the refusal away (R131, R162, R166). -/

namespace Sys2Proof.Safety

open Sys2Proof.Machine

/-- `k` steps of the machine. -/
def run (k : Nat) (s : State) : Host.Outcome State Fault Refusal := Host.Core.run Sys2Proof.core k s

/-- Operations performed one after the other, the state after one being the state before the next (R50). -/
def execAll : List Instr → State → Host.Outcome State Fault Refusal
  | [], s => .next s
  | i :: is, s =>
    match exec i s with
    | .next t => execAll is t
    | .fault f => .fault f
    | .refused r => .refused r

/-- The edges at which these operation words stand on the ports, in this order. -/
def edges (ws : List OpWord) : List HostAction := ws.map (fun w => .edge (drivePins w))

/-- The state can end a transaction: the register holds a value and no fault is recorded (R93, R143). -/
def validEnd (s : State) : Bool := s.defined && s.fault.isNone

/-- Every EXPECT so far that read a value read the value it asserts (R68). DESIGN CHOICE (log entry 5): an EXPECT
of a register without a value reads nothing, so it counts as neither met nor failed here; the fault it records
(R143) keeps the end from being valid (`validEnd`), and a claim that the assertions held needs both. -/
def expectsMet (s : State) : Bool := s.observed.all (fun o => o.expected.all (· == o.value))

/-- From a register that holds a value or not (`defined`), these host actions present clean inputs only, and
read `crc_out` only while the register holds a value (R131, R162, R166). -/
def readsDefined (defined : Bool) : List HostAction → Bool
  | [] => true
  | .edge p :: rest =>
    match samplePins p with
    | some w => readsDefined (defined || (decode w).startsMessage) rest
    | none => false
  | .read :: rest => defined && readsDefined defined rest
  | .expect _ :: rest => defined && readsDefined defined rest
  | .powerCycle :: rest => readsDefined false rest

/-- No fault is recorded and what the host still does keeps its duties. -/
def hostKeepsDuties (s : State) : Bool := s.fault.isNone && readsDefined s.defined s.pending

end Sys2Proof.Safety
end

