-- ==== Sys2Proof/Certificates/Slice0/Obligations.lean ====
section
/-! DEFINITION. The statements for the provers. Each docstring names the rule of spec/ it follows, or says that
it rests on an inference of the spec or on an entry of the assumption log. -/

open Sys2Proof Sys2Proof.Machine Sys2Proof.Safety

/-! ## Encoding -/

/-- Encoding and decoding agree for every operation with every operand (30_encoding.md sections 1 and 2). -/
def Obligations.EncodeThenDecodeIsIdentity : Prop :=
  ∀ i : Instr, i.wellFormed = true → decode (encode i) = i

/-- Encoding what a word decodes to gives the word back, its ignored bits cleared: no bit that an operation uses
is dropped by the decoder (30_encoding.md sections 2 and 4). -/
def Obligations.DecodeThenEncodeClearsIgnoredBits : Prop :=
  ∀ w : OpWord, encode (decode w) = w &&& usedBits (decode w)

/-- R62: the decode priority, with the operands' bit ranges. -/
def Obligations.DecodePriority : Prop :=
  ∀ w : OpWord,
    (w.getLsbD 26 = true → decode w = .reset) ∧
    (w.getLsbD 26 = false → w.extractLsb' 24 2 = 0b11#2 →
      decode w = .loadFeed (w.extractLsb' 8 16) (w.extractLsb' 0 8)) ∧
    (w.getLsbD 26 = false → w.extractLsb' 24 2 = 0b10#2 → decode w = .load (w.extractLsb' 8 16)) ∧
    (w.getLsbD 26 = false → w.extractLsb' 24 2 = 0b01#2 → decode w = .feed (w.extractLsb' 0 8)) ∧
    (w.extractLsb' 24 3 = 0b000#3 → decode w = .nop)

/-- R67: exactly one row of the opcode map matches every word; that row is the operation the word decodes to,
and the operands are the bits the row's pattern marks `i` and `d`. -/
def Obligations.ExactlyOneOpcodeRowSelects : Prop :=
  opcodeMap =
    [⟨.NOP, 0x0000000#27, 0x7000000#27⟩, ⟨.FEED, 0x1000000#27, 0x7000000#27⟩,
      ⟨.LOAD, 0x2000000#27, 0x7000000#27⟩, ⟨.LOAD_FEED, 0x3000000#27, 0x7000000#27⟩,
      ⟨.RESET, 0x4000000#27, 0x4000000#27⟩] ∧
  ∀ w : OpWord,
    (opcodeMap.filter (fun r => r.selects w)).map (·.op) = [(decode w).op] ∧
    (∀ d, decode w = .feed d → d = w.extractLsb' 0 8) ∧
    (∀ v, decode w = .load v → v = w.extractLsb' 8 16) ∧
    (∀ v d, decode w = .loadFeed v d → v = w.extractLsb' 8 16 ∧ d = w.extractLsb' 0 8)

/-- R64: two words that agree on `rst` and, unless it is 1, on the controls and on the operand fields the
controls select, are the same operation with the same effect. -/
def Obligations.IgnoredFieldsHaveNoEffect : Prop :=
  ∀ (w w' : OpWord) (s : State),
    w.getLsbD 26 = w'.getLsbD 26 →
    (w.getLsbD 26 = false → w.extractLsb' 24 2 = w'.extractLsb' 24 2) →
    (w.getLsbD 26 = false → w.getLsbD 25 = true → w.extractLsb' 8 16 = w'.extractLsb' 8 16) →
    (w.getLsbD 26 = false → w.getLsbD 24 = true → w.extractLsb' 0 8 = w'.extractLsb' 0 8) →
    decode w = decode w' ∧ exec (decode w) s = exec (decode w') s

/-- R65 and R140: every word decodes, and every operation is performed from every state, raising nothing. -/
def Obligations.EveryWordDecodesAndRuns : Prop :=
  (∀ nbits w : Nat, 27 ≤ nbits → w < 2 ^ 27 →
    decodeTableWord nbits w = some (decode (BitVec.ofNat 27 w)) ∧ (decode (BitVec.ofNat 27 w)).wellFormed = true) ∧
  (∀ (i : Instr) (s : State), ∃ t, exec i s = .next t ∧ t.fault = s.fault)

/-- Words written out from the spec's encodings decode as the spec says (95_test_vectors.md section 2.4), and
the words of the spec's examples are formed as it says (R68's examples). -/
def Obligations.SpecWordsDecode : Prop :=
  decode 0x0FFFFFF#27 = .nop ∧
  decode 0x2ABCDEF#27 = .load 0xABCD#16 ∧
  decode 0x1ABCDEF#27 = .feed 0xEF#8 ∧
  decode 0x3123456#27 = .loadFeed 0x1234#16 0x56#8 ∧
  decode 0x7FFFFFF#27 = .reset ∧
  encode (.feed 0x34#8) = 0x1000034#27 ∧
  encode (.load 0x1234#16) = 0x2123400#27 ∧
  encode (.loadFeed 0xFFFF#16 0x34#8) = 0x3FFFF34#27

/-- An edge with an unclean bit on any port, an ignored one among them, is refused, a mask other than 0 on some
port saying so; with every mask 0 the ports are the word of their levels, `rst` the most significant bit, and the
step is that word's operation (70_reset_and_hazards.md, input integrity; log entry 6). -/
def Obligations.UncleanInputIsRefused : Prop :=
  ∀ (s : State) (p : Pins) (rest : List HostAction), s.pending = .edge p :: rest →
    (p.rst.unclean ≠ 0#1 ∨ p.initLoad.unclean ≠ 0#1 ∨ p.dataValid.unclean ≠ 0#1 ∨ p.initValue.unclean ≠ 0#16 ∨
      p.data.unclean ≠ 0#8 → samplePins p = none ∧ step s = .refused .uncleanInput) ∧
    (p.rst.unclean = 0#1 → p.initLoad.unclean = 0#1 → p.dataValid.unclean = 0#1 → p.initValue.unclean = 0#16 →
      p.data.unclean = 0#8 →
      ∃ w t, w = p.rst.level ++ p.initLoad.level ++ p.dataValid.level ++ p.initValue.level ++ p.data.level ∧
        samplePins p = some w ∧ step s = exec (decode w) { s with pending := rest } ∧ step s = .next t)

/-! ## The bit step, the byte step and `compute` -/

/-- R80: the bit step is the source's inner loop body. -/
def Obligations.BitStepIsSourceLoopBody : Prop :=
  ∀ (r : Word) (b : Bool),
    ((r.getLsbD 0 ^^ b) = true → step1 r b = (r >>> 1) ^^^ 0x8408#16) ∧
    ((r.getLsbD 0 ^^ b) = false → step1 r b = r >>> 1)

/-- The corner cases of the steps, an inference of the spec (40_crc_operations.md section 1, corner cases): zero
stays zero; with `r[0] != b` bit 15 is set and bits 10 and 3 of the shifted value are flipped; the bit step is
undone by `unstep1`. -/
def Obligations.BitStepCorners : Prop :=
  step1 0#16 false = 0#16 ∧ step8 0#16 0#8 = 0#16 ∧
  (∀ (r : Word) (b : Bool), r.getLsbD 0 ≠ b → ∀ i, i < 16 →
    (step1 r b).getLsbD i =
      if i = 15 then true else if i = 10 ∨ i = 3 then !(r.getLsbD (i + 1)) else r.getLsbD (i + 1)) ∧
  (∀ (r : Word) (b : Bool), (step1 r b).getLsbD 15 = (r.getLsbD 0 ^^ b)) ∧
  (∀ (r : Word) (b : Bool), unstep1 (step1 r b) b = r) ∧
  step8 0xFFFF#16 0xFF#8 = 0x00FF#16 ∧ step8 0x0001#16 0x01#8 = 0x0000#16

/-- R81: the byte step is eight bit steps, bit 0 of the byte first, and is the source's loop that shifts the
byte right after each bit. -/
def Obligations.ByteStepIsSourceLoop : Prop :=
  ∀ (r : Word) (d : Byte),
    step8 r d = (List.range 8).foldl (fun x k => step1 x (d.getLsbD k)) r ∧
    step8 r d = shiftingSteps 8 r d

/-- The table form, an inference of the spec (40_crc_operations.md section 4, table form): every entry of the
spec's table, and the byte step by the table. -/
def Obligations.ByteStepByTable : Prop :=
  crcTable.length = 256 ∧
  (∀ i, i < 256 → crcTable[i]? = some (step8 0#16 (BitVec.ofNat 8 i))) ∧
  ∀ (r : Word) (d : Byte), ∃ t, crcTable[tableIndex r d]? = some t ∧ step8 r d = (r >>> 8) ^^^ t

/-- The closed byte form, an inference of the spec (40_crc_operations.md section 4, closed byte form). -/
def Obligations.ByteStepClosedForm : Prop :=
  ∀ (r : Word) (d : Byte), step8 r d = closedStep8 r d

/-- The sixteen equations, an inference of the spec (40_crc_operations.md section 4, bit-parallel form). -/
def Obligations.ByteStepBitParallel : Prop :=
  ∀ (c : Word) (d : Byte) (i : Nat), i < 16 → (parallelBits c d)[i]? = some ((step8 c d).getLsbD i)

/-- R91: a message of n bytes is n times 8 bit steps, over its bits in order, and takes n FEED operations and no
LOAD_FEED, or one LOAD_FEED and n-1 FEED; of the edges of a transaction, NOPs anywhere and any values on ignored
fields, exactly n consume a byte (`rst` = 0 and `data_valid` = 1). -/
def Obligations.ComputeTakesEightStepsPerByte : Prop :=
  ∀ (data : List Byte) (initial : Word),
    compute data initial = (messageBits data).foldl step1 initial ∧
    (messageBits data).length = data.length * 8 ∧
    (crcOps initial data).countP (fun i => i.op == .FEED) = data.length ∧
    (crcOps initial data).countP (fun i => i.op == .LOAD_FEED) = 0 ∧
    (∀ (first : Byte) (later : List Byte), data = first :: later →
      (crcqOps initial first later).countP (fun i => i.op == .LOAD_FEED) = 1 ∧
      (crcqOps initial first later).countP (fun i => i.op == .FEED) = data.length - 1) ∧
    ∀ ws : List OpWord,
      ((ws.map decode).filter (fun i => i.op != .NOP) = crcOps initial data ∨
       (∃ first later, data = first :: later ∧
         (ws.map decode).filter (fun i => i.op != .NOP) = crcqOps initial first later) ∨
       (ws.map decode).filter (fun i => i.op != .NOP) = .reset :: data.map .feed) →
      ws.countP (fun w => !w.getLsbD 26 && w.getLsbD 24) = data.length

/-- R90: an empty message leaves the initial value; in the block, LOAD with no FEED. -/
def Obligations.EmptyMessageKeepsInitial : Prop :=
  ∀ (initial : Word) (s : State),
    compute [] initial = initial ∧
    ∃ t, execAll (crcOps initial []) s = .next t ∧ sampleCrcOut t = .ok initial

/-- `compute` is affine in the initial value, an inference of the spec (40_crc_operations.md section 4,
dependence on the initial value). -/
def Obligations.ComputeAffineInInitial : Prop :=
  ∀ (data : List Byte) (a b : Word),
    compute data a ^^^ compute data b = compute (List.replicate data.length 0#8) (a ^^^ b)

/-- For a fixed message `compute` is a bijection of the initial value, an inference of the spec
(40_crc_operations.md section 4, dependence on the initial value). -/
def Obligations.ComputeBijectiveInInitial : Prop :=
  ∀ data : List Byte, Function.Bijective (fun initial : Word => compute data initial)

/-- Feeding the result low byte first gives zero, an inference of the spec (40_crc_operations.md section 4,
residue); high byte first it does not in general. -/
def Obligations.ResidueIsZero : Prop :=
  (∀ (data : List Byte) (initial : Word),
    compute (data ++ [(compute data initial).extractLsb' 0 8, (compute data initial).extractLsb' 8 8]) initial
      = 0x0000#16) ∧
  ∃ (data : List Byte) (initial : Word),
    compute (data ++ [(compute data initial).extractLsb' 8 8, (compute data initial).extractLsb' 0 8]) initial
      ≠ 0x0000#16

/-- The normal-form equivalence, an inference of the spec (40_crc_operations.md section 4, normal-form
equivalence). -/
def Obligations.NormalFormEquivalence : Prop :=
  BitVec.reverse (0x8408#16) = 0x1021#16 ∧
  ∀ (data : List Byte) (initial : Word),
    compute data initial = (msbCompute (data.map BitVec.reverse) initial.reverse).reverse

/-! ## The operations -/

/-- R84: NOP changes nothing, whatever its ignored fields, and nor does any number of NOPs in a row. -/
def Obligations.NopHoldsState : Prop :=
  (∀ s : State, exec .nop s = .next s) ∧
  (∀ w : OpWord, w.extractLsb' 24 3 = 0b000#3 → decode w = .nop) ∧
  (∀ (ws : List OpWord) (s : State) (rest : List HostAction),
    (∀ w ∈ ws, w.extractLsb' 24 3 = 0b000#3) → s.pending = edges ws ++ rest →
    run ws.length s = .next { s with pending := rest })

/-- R85: LOAD writes `init_value`, every value of it, and makes the register defined; nothing else changes. -/
def Obligations.LoadWritesInitialValue : Prop :=
  (∀ w : OpWord, w.extractLsb' 24 3 = 0b010#3 → decode w = .load (w.extractLsb' 8 16)) ∧
  (∀ (v : Word) (s : State),
    exec (.load v) s = .next { s with crc := some v } ∧ State.defined { s with crc := some v } = true) ∧
  encode (.load 0x1234#16) = 0x2123400#27

/-- R86: FEED performs the byte step on a defined register, leaves an undefined one without a value, and
raises nothing itself; nothing else changes. -/
def Obligations.FeedTakesOneByte : Prop :=
  (∀ w : OpWord, w.extractLsb' 24 3 = 0b001#3 → decode w = .feed (w.extractLsb' 0 8)) ∧
  (∀ (d : Byte) (s : State) (v : Word), s.crc = some v →
    exec (.feed d) s = .next { s with crc := some (step8 v d) }) ∧
  (∀ (d : Byte) (s : State), s.crc = none →
    exec (.feed d) s = .next s ∧ sampleCrcOut s = .error .undefinedCrc) ∧
  encode (.feed 0x34#8) = 0x1000034#27 ∧ step8 0xFFFF#16 0x34#8 = 0x7820#16 ∧ step8 0xFFFF#16 0xFF#8 = 0x00FF#16

/-- R87: LOAD_FEED performs the byte step on `init_value`, not on the old register, and makes the register
defined; nothing else changes. -/
def Obligations.LoadFeedStartsAndFeeds : Prop :=
  (∀ w : OpWord, w.extractLsb' 24 3 = 0b011#3 → decode w = .loadFeed (w.extractLsb' 8 16) (w.extractLsb' 0 8)) ∧
  (∀ (v : Word) (d : Byte) (s : State),
    exec (.loadFeed v d) s = .next { s with crc := some (step8 v d) } ∧
    State.defined { s with crc := some (step8 v d) } = true) ∧
  encode (.loadFeed 0xFFFF#16 0x34#8) = 0x3FFFF34#27 ∧ step8 0xFFFF#16 0x34#8 = 0x7820#16

/-- R88: RESET sets the register to 0xFFFF whatever the other fields; nothing is loaded or fed, and nothing else
changes. -/
def Obligations.ResetReturnsDefault : Prop :=
  (∀ w : OpWord, w.getLsbD 26 = true → decode w = .reset) ∧
  (∀ s : State,
    exec .reset s = .next { s with crc := some 0xFFFF#16 } ∧ State.defined { s with crc := some 0xFFFF#16 } = true) ∧
  encode .reset = 0x4000000#27

/-- LOAD_FEED is LOAD and then FEED, and RESET is LOAD 0xFFFF: inferences of the spec (40_crc_operations.md
section 2, corner cases of LOAD_FEED and RESET). -/
def Obligations.LoadFeedIsLoadThenFeed : Prop :=
  (∀ (v : Word) (d : Byte) (s : State), execAll [.load v, .feed d] s = exec (.loadFeed v d) s) ∧
  (∀ s : State, exec .reset s = exec (.load 0xFFFF#16) s)

/-- The frame of all five operations: no operation touches the recorded fault, the host's pending actions or
what the host has read, and NOP touches nothing (10_state.md section 1; the last two fields are the model's,
log entries 2 and 5). -/
def Obligations.OperationFrame : Prop :=
  ∀ (i : Instr) (s t : State), exec i s = .next t →
    t.fault = s.fault ∧ t.pending = s.pending ∧ t.observed = s.observed ∧
    (i = .nop → t.crc = s.crc) ∧ (t.crc ≠ s.crc → i.op ≠ .NOP)

/-- A start abandons the message before it: after any operations, a start and then any further operations leave
a register that does not depend on what came before, an inference of the spec (70_reset_and_hazards.md
section 2). -/
def Obligations.StartForgetsOldMessage : Prop :=
  ∀ (before before' after : List Instr) (i : Instr) (s s' : State), i.startsMessage = true →
    ∃ t t', execAll (before ++ i :: after) s = .next t ∧ execAll (before' ++ i :: after) s' = .next t' ∧
      t.crc = t'.crc ∧ t.defined = true

/-- The register is written only at a clock edge by RESET, LOAD, FEED or LOAD_FEED (10_state.md section 1), or
lost with the power (60_exceptions.md section 3; log entry 7). -/
def Obligations.CrcIsWrittenOnlyByTheseEvents : Prop :=
  ∀ s t : State, step s = .next t → t.crc ≠ s.crc →
    (∃ p w rest, s.pending = .edge p :: rest ∧ samplePins p = some w ∧
      (decode w).op ∈ [Op.RESET, Op.LOAD, Op.FEED, Op.LOAD_FEED]) ∨
    (∃ rest, s.pending = .powerCycle :: rest ∧ t.crc = none)

/-- R32: `defined` is 0 at power-on, becomes 1 at RESET, LOAD or LOAD_FEED and is changed by no FEED and no NOP;
while it is 0 a FEED leaves the register without a value and a read faults. -/
def Obligations.DefinedBitFollowsStarts : Prop :=
  State.powerOn.defined = false ∧
  (∀ (i : Instr) (s : State), ∃ t, exec i s = .next t ∧
    (t.defined = true ↔
      s.defined = true ∨ i = .reset ∨ (∃ v, i = .load v) ∨ (∃ v d, i = .loadFeed v d))) ∧
  (∀ s : State, s.defined = false →
    s.crc = none ∧ (∀ d, exec (.feed d) s = .next s) ∧ sampleCrcOut s = .error .undefinedCrc)

/-! ## Steps, reads and reset -/

/-- A step at an edge is the operation its word decodes to, once that edge is taken from the host's pending
actions; and so it is for a word the host presents next (30_encoding.md section 1; log entries 2 and 3). -/
def Obligations.StepRunsDecodedInstruction : Prop :=
  (∀ (s : State) (p : Pins) (w : OpWord) (rest : List HostAction),
    s.pending = .edge p :: rest → samplePins p = some w →
    step s = exec (decode w) { s with pending := rest }) ∧
  (∀ (s : State) (i : Instr), i.wellFormed = true →
    step { s with pending := issueOp i :: s.pending } = exec i s) ∧
  (∀ (s : State) (nbits w : Nat), w < 2 ^ nbits → w < 2 ^ 27 →
    step (s.withFetchWord nbits w) = exec (decode (BitVec.ofNat 27 w)) s)

/-- With no action of the host the clock stands still and everything holds; after a loss of power the register
is as at power-on (60_exceptions.md section 3; that the rest of the state stays is log entry 7's choice). -/
def Obligations.StoppedClockHoldsAndPowerLossUndefines : Prop :=
  (∀ s : State, s.pending = [] → step s = .next s) ∧
  (∀ (s : State) (rest : List HostAction), s.pending = .powerCycle :: rest →
    step s = .next { s with crc := State.powerOn.crc, pending := rest })

/-- R24: `crc_out` is the register bit for bit, and reading it has no side effect on the block and may be
repeated. -/
def Obligations.ReadShowsRegister : Prop :=
  ∀ (s : State) (v : Word), s.crc = some v →
    (∃ out, sampleCrcOut s = .ok out ∧ ∀ i, i < 16 → out.getLsbD i = v.getLsbD i) ∧
    (∀ (a : HostAction) (rest : List HostAction),
      a = .read ∨ (∃ x, a = .expect x) → s.pending = a :: rest →
      ∃ t, step s = .next t ∧ t.crc = s.crc ∧ t.defined = s.defined ∧ t.fault = s.fault ∧
        sampleCrcOut t = sampleCrcOut s)

/-- A read of a defined register adds the value, and for EXPECT the value asserted, to what the host has read and
changes nothing else (40_crc_operations.md section 3, the observation of a transaction; that the host's reads
stand in State is log entry 5's choice). -/
def Obligations.ReadIsKeptByTheHost : Prop :=
  ∀ (s : State) (v : Word) (a : HostAction) (e : Option Word) (rest : List HostAction), s.crc = some v →
    a = .read ∧ e = none ∨ (∃ x, a = .expect x ∧ e = some x) → s.pending = a :: rest →
    step s = .next { s with pending := rest, observed := s.observed ++ [⟨v, e⟩] }

/-- R143: a read while `defined` = 0 records the fault, no later operation (and no later read) clears it, and no
state with it recorded is a valid end. -/
def Obligations.UndefinedReadRecordsFault : Prop :=
  (∀ (s : State) (a : HostAction) (rest : List HostAction),
    s.defined = false → a = .read ∨ (∃ x, a = .expect x) → s.pending = a :: rest →
    step s = .next { s with fault := some .undefinedCrc, pending := rest }) ∧
  (∀ (i : Instr) (s : State), s.fault = some .undefinedCrc →
    ∃ t, exec i s = .next t ∧ t.fault = some .undefinedCrc) ∧
  (∀ (k : Nat) (s t : State), s.fault = some .undefinedCrc → HostAction.powerCycle ∉ s.pending →
    run k s = .next t → t.fault = some .undefinedCrc) ∧
  (∀ s : State, s.fault = some .undefinedCrc → validEnd s = false)

/-- When an end is valid and when the host's assertions hold (40_crc_operations.md section 3, 60_exceptions.md
section 1, 30_encoding.md section 5): an end is valid exactly when the register holds a value and no fault is
recorded, and a read in such a state is a valid end; the assertions hold exactly when every EXPECT that read a
value read the value it asserts, so EXPECT adds its own and READ adds none. The recorded fault and the list of
reads are the model's choice (log entries 4 and 5), and so are their values at reset and at power-on. The model's
choice too (log entry 5): an EXPECT of a register without a value counts as neither met nor failed, and after it no
end is valid. -/
def Obligations.ValidEndsAndMetExpectations : Prop :=
  (∀ s : State, validEnd s = true ↔ (∃ v, s.crc = some v) ∧ s.fault = none) ∧
  (∀ s : State, expectsMet s = true ↔ ∀ o ∈ s.observed, ∀ x, o.expected = some x → o.value = x) ∧
  (∀ (s : State) (v : Word) (rest : List HostAction), s.crc = some v → s.pending = .read :: rest →
    ∃ t, step s = .next t ∧ (validEnd t = true ↔ s.fault = none) ∧ expectsMet t = expectsMet s) ∧
  (∀ (s : State) (v x : Word) (rest : List HostAction), s.crc = some v → s.pending = .expect x :: rest →
    ∃ t, step s = .next t ∧ (validEnd t = true ↔ s.fault = none) ∧
      (expectsMet t = true ↔ expectsMet s = true ∧ v = x)) ∧
  (∀ (s : State) (x : Word) (rest : List HostAction), s.crc = none → s.pending = .expect x :: rest →
    ∃ t, step s = .next t ∧ t.fault = some .undefinedCrc ∧ validEnd t = false ∧ expectsMet t = expectsMet s) ∧
  validEnd State.reset = true ∧ validEnd State.powerOn = false ∧
  expectsMet State.reset = true ∧ expectsMet State.powerOn = true

/-- R50: operations take effect in the order of the edges that sample them, one per edge; after the edge of
operation k the register reflects operations 1 to k and no later one. -/
def Obligations.EdgesTakeEffectInOrder : Prop :=
  ∀ (ws : List OpWord) (s : State) (later : List HostAction), s.pending = edges ws ++ later →
    run ws.length s = execAll (ws.map decode) { s with pending := later } ∧
    ∃ t, run ws.length s = .next t ∧ t.pending = later

/-- R92: the register after a step at an edge, and after the edges of a whole transaction, depends on the words
and the register only, and so does what a read then shows. -/
def Obligations.SameRegisterSameWordsSameResult : Prop :=
  ∀ (ws : List OpWord) (s s' : State) (later later' : List HostAction), s.crc = s'.crc →
    s.pending = edges ws ++ later → s'.pending = edges ws ++ later' →
    ∃ t t', run ws.length s = .next t ∧ run ws.length s' = .next t' ∧
      t.crc = t'.crc ∧ t.defined = t'.defined ∧ sampleCrcOut t = sampleCrcOut t'

/-- R31: the state after RESET, at power-on, and the result of RESET followed by the bytes of a message. -/
def Obligations.ResetStateAndDefaultMessage : Prop :=
  State.reset.crc = some 0xFFFF#16 ∧ State.reset.defined = true ∧ sampleCrcOut State.reset = .ok 0xFFFF#16 ∧
  State.powerOn.crc = none ∧ State.powerOn.defined = false ∧ sampleCrcOut State.powerOn = .error .undefinedCrc ∧
  (∀ s : State, ∃ t, exec .reset s = .next t ∧ t.crc = some 0xFFFF#16 ∧ t.defined = true ∧
    sampleCrcOut t = .ok 0xFFFF#16) ∧
  (∀ (data : List Byte) (s : State) (rest : List HostAction),
    s.pending = issueOp .reset :: data.map (fun d => issueOp (.feed d)) ++ rest →
    run (data.length + 1) s = .next { s with crc := some (compute data), pending := rest })

/-- R160: at an edge with `rst` = 1 the block performs RESET whatever the other inputs, ending in the state of
R31; holding `rst` for several edges leaves the same state; without an edge (and without a loss of power)
nothing resets the register. -/
def Obligations.HoldingResetKeepsResetState : Prop :=
  (∀ (w : OpWord) (ws : List OpWord) (s : State) (rest : List HostAction),
    (∀ x ∈ w :: ws, x.getLsbD 26 = true) → s.pending = edges (w :: ws) ++ rest →
    step s = .next { s with crc := some 0xFFFF#16, pending := edges ws ++ rest } ∧
    run (ws.length + 1) s = .next { s with crc := some 0xFFFF#16, pending := rest }) ∧
  (∀ s t : State, step s = .next t → (∀ p rest, s.pending ≠ .edge p :: rest) →
    (∀ rest, s.pending ≠ .powerCycle :: rest) → t.crc = s.crc)

/-- R34: an operation on one instance is that instance's own step and leaves every other as it is. -/
def Obligations.InstancesShareNothing : Prop :=
  (∀ (k : Nat) (system : List State) (s t : State), system[k]? = some s → step s = .next t →
    ∃ system', stepInstance k system = .next system' ∧ system'[k]? = some t ∧
      ∀ j, j ≠ k → system'[j]? = system[j]?) ∧
  (∀ (j k : Nat) (a b c : List State), j ≠ k → j < a.length → k < a.length →
    stepInstance j a = .next b → stepInstance k b = .next c →
    ∃ b', stepInstance k a = .next b' ∧ stepInstance j b' = .next c)

/-! ## Transactions and runs -/

/-- The block computes the source's function, an inference of the spec (40_crc_operations.md section 3): from
every state, a start, one FEED per remaining byte, NOPs anywhere, any values on ignored fields, then a read,
gives `compute(data, initial)`, and the end is valid unless a fault was recorded before. That the read's value
stands in State is log entry 5's choice, and the recorded fault log entry 4's. -/
def Obligations.TransactionComputes : Prop :=
  ∀ (data : List Byte) (initial : Word) (ws : List OpWord) (s : State) (rest : List HostAction),
    ((ws.map decode).filter (fun i => i.op != .NOP) = crcOps initial data ∨
     (∃ first later, data = first :: later ∧
       (ws.map decode).filter (fun i => i.op != .NOP) = crcqOps initial first later) ∨
     (initial = 0xFFFF#16 ∧
       (ws.map decode).filter (fun i => i.op != .NOP) = .reset :: data.map .feed)) →
    s.pending = edges ws ++ .read :: rest →
    ∃ t, run (ws.length + 1) s = .next t ∧
      t = { s with crc := some (compute data initial), pending := rest,
                   observed := s.observed ++ [⟨compute data initial, none⟩] } ∧
      (s.fault = none → validEnd t = true)

/-- The pseudo-operations CRC and CRCQ, followed by READ, read `compute`, and the CRCQ form takes one operation
fewer: an inference of the spec (30_encoding.md section 5). -/
def Obligations.PseudoOperationsCompute : Prop :=
  ∀ (init b : Nat) (bs : List Nat) (s : State), s.pending = [] → init < 0x10000 → (∀ x ∈ b :: bs, x < 0x100) →
    ∃ long short, expandLine (.crc init (b :: bs)) = .ok long ∧ expandLine (.crcq init (b :: bs)) = .ok short ∧
      long.length = short.length + 1 ∧
      ∀ line actions, line = Line.crc init (b :: bs) ∧ actions = long ∨ line = Line.crcq init (b :: bs) ∧ actions = short →
        run (actions.length + 1) ((s.issueLine line).issueLine .read) =
          .next { s with crc := some (compute ((b :: bs).map toByte) (toWord init)),
                         observed := s.observed ++ [⟨compute ((b :: bs).map toByte) (toWord init), none⟩] }

/-- A host that presents clean inputs and reads only a register that holds a value: from every such state a step
answers a next state, and the next state is such a state again (41_host_hex_decoder.md section 3, 70
section 2; that a run holds the host's actions is log entry 2's choice). -/
def Obligations.HostDutiesAreAnInvariant : Prop :=
  ∀ s : State, hostKeepsDuties s = true → ∃ t, step s = .next t ∧ hostKeepsDuties t = true

/-- The state after reset meets that invariant. This is the model's choice and no rule of the spec: that
State.reset has no fault recorded is log entry 4's DESIGN CHOICE (a RESET operation itself clears no fault), and
that no host action is waiting there is log entry 2's. -/
def Obligations.ResetMeetsHostDuties : Prop := hostKeepsDuties State.reset = true

/-- So no run of a host that keeps its duties stops or records a fault, from power-on as from anywhere: a host
has "never a fault from the block, except the read of an undefined register" (41_host_hex_decoder.md section 3),
and the duties that keep that read and the refusal away are "The inputs must hold a 0 or 1 on every bit" and
"Before the first FEED of every message, the host must perform one of RESET", LOAD or LOAD_FEED
(70_reset_and_hazards.md sections 2 and 3). That a run holds the host's actions is log entry 2's choice; that no
fault is recorded at power-on, on which the second clause rests, is log entry 4's. -/
def Obligations.DutifulRunNeverFaults : Prop :=
  (∀ (k : Nat) (s : State), hostKeepsDuties s = true → ∃ t, run k s = .next t ∧ t.fault = none) ∧
  (∀ (k : Nat) (actions : List HostAction), readsDefined false actions = true →
    ∃ t, run k { State.powerOn with pending := actions } = .next t ∧ t.fault = none)

/-- Feeding bytes without a start: after an earlier message the register becomes the CRC of the two messages'
concatenation, and after power-on it stays without a value (70_reset_and_hazards.md section 2). -/
def Obligations.OmittedStartConcatenates : Prop :=
  ∀ (data data' : List Byte) (initial : Word) (s : State) (rest : List HostAction),
    s.pending = data'.map (fun d => issueOp (.feed d)) ++ rest →
    (s.crc = some (compute data initial) →
      run data'.length s = .next { s with crc := some (compute (data ++ data') initial), pending := rest }) ∧
    (s.crc = none → run data'.length s = .next { s with pending := rest })

/-! ## The host's hex decoder and the textual form -/

/-- R121: space, tab and newline are removed wherever they stand, and no other character is: any other that is
no hex digit makes decoding fail. -/
def Obligations.StrippingRemovesOnlyThese : Prop :=
  (∀ (before after : List Char) (c : Char), c.toNat = 0x20 ∨ c.toNat = 0x09 ∨ c.toNat = 0x0A →
    strip (before ++ c :: after) = strip (before ++ after) ∧
    hexDecode (before ++ c :: after) = hexDecode (before ++ after)) ∧
  (∀ text : List Char, (∀ c ∈ text, c.toNat ≠ 0x20 ∧ c.toNat ≠ 0x09 ∧ c.toNat ≠ 0x0A) → strip text = text) ∧
  (∀ (text : List Char) (c : Char), c ∈ text → c.toNat ≠ 0x20 → c.toNat ≠ 0x09 → c.toNat ≠ 0x0A →
    isHexChar c = false → ∃ e, hexDecode text = .error e)

/-- R122 and R124: an odd number of characters after stripping is the length error, bad characters or not. -/
def Obligations.OddLengthIsTheLengthError : Prop :=
  ∀ text : List Char, (strip text).length % 2 = 1 → hexDecode text = .error .invalidLengthError

/-- R123: exactly the ASCII characters 0-9, a-f and A-F are hex characters, both cases mean the same value, and
any other character in a text of even stripped length is the character error. -/
def Obligations.NonHexCharacterIsTheCharacterError : Prop :=
  (∀ c : Char, isHexChar c = true ↔
    (0x30 ≤ c.toNat ∧ c.toNat ≤ 0x39) ∨ (0x61 ≤ c.toNat ∧ c.toNat ≤ 0x66) ∨ (0x41 ≤ c.toNat ∧ c.toNat ≤ 0x46)) ∧
  (∀ k : Nat, k < 10 → hexVal? (Char.ofNat (0x30 + k)) = some (BitVec.ofNat 4 k)) ∧
  (∀ k : Nat, k < 6 → hexVal? (Char.ofNat (0x61 + k)) = some (BitVec.ofNat 4 (10 + k)) ∧
    hexVal? (Char.ofNat (0x41 + k)) = hexVal? (Char.ofNat (0x61 + k))) ∧
  (∀ (text : List Char) (c : Char), (strip text).length % 2 = 0 → c ∈ strip text → isHexChar c = false →
    hexDecode text = .error .invalidCharacterError)

/-- R125: on success there are `len(s)/2` bytes, and byte i is the pair `s[2i] s[2i+1]` in base 16, the first
the most significant nibble. -/
def Obligations.DecodedBytesAreThePairs : Prop :=
  ∀ text : List Char, (strip text).length % 2 = 0 → (∀ c ∈ strip text, isHexChar c = true) →
    ∃ bytes, hexDecode text = .ok bytes ∧ bytes.length = (strip text).length / 2 ∧
      ∀ i, i < bytes.length → ∃ hi lo a b x,
        (strip text)[2 * i]? = some hi ∧ (strip text)[2 * i + 1]? = some lo ∧
        hexVal? hi = some a ∧ hexVal? lo = some b ∧ bytes[i]? = some x ∧ x.toNat = 16 * a.toNat + b.toNat

/-- R126: a text that is empty after stripping, such as one of only spaces, tabs and newlines, is the empty
message and no error. -/
def Obligations.BlankTextIsTheEmptyMessage : Prop :=
  (∀ text : List Char, strip text = [] → hexDecode text = .ok []) ∧
  (∀ text : List Char, (∀ c ∈ text, c = ' ' ∨ c = '\t' ∨ c = '\n') → hexDecode text = .ok [])

/-- Bytes written as hex digits decode to themselves, first pair first (20_memory.md section 2,
41_host_hex_decoder.md section 2). -/
def Obligations.HexTextDecodesToItsBytes : Prop :=
  ∀ data : List Byte, hexDecode (hexText data) = .ok data

/-- A MSG whose text fails to decode issues no operation; one whose text decodes issues what CRC issues for the
bytes (30_encoding.md section 5, 41_host_hex_decoder.md section 2; log entry 11). -/
def Obligations.RefusedTextIssuesNothing : Prop :=
  ∀ (s : State) (init : Nat) (text : List Char),
    (∀ e, hexDecode text = .error e → s.issueLine (.msg init text) = s) ∧
    (∀ data, hexDecode text = .ok data →
      s.issueLine (.msg init text) = s.issueLine (.crc init (data.map BitVec.toNat)))

/-- An operation printed in the textual form is read back as that operation, and its line stands for one edge
with the operation's word (30_encoding.md section 5; log entry 10). -/
def Obligations.PrintedOperationIsReadBack : Prop :=
  ∀ i : Instr, parseLine (printOp i) = some (lineOfOp i) ∧ expandLine (lineOfOp i) = .ok [issueOp i]

/-- R69: the expansions of the pseudo-operations. -/
def Obligations.PseudoOperationsExpand : Prop :=
  ∀ (init : Nat) (bytes : List Nat), init < 0x10000 → (∀ x ∈ bytes, x < 0x100) →
    expandLine (.crc init bytes) =
      .ok (issueOp (.load (toWord init)) :: bytes.map (fun b => issueOp (.feed (toByte b)))) ∧
    (∀ b bs, bytes = b :: bs → expandLine (.crcq init bytes) =
      .ok (issueOp (.loadFeed (toWord init) (toByte b)) :: bs.map (fun x => issueOp (.feed (toByte x))))) ∧
    (∀ text data, hexDecode text = .ok data → expandLine (.msg init text) =
      .ok (issueOp (.load (toWord init)) :: data.map (fun b => issueOp (.feed b)))) ∧
    (∀ text e, hexDecode text = .error e → expandLine (.msg init text) = .error (.hostError e) ∧
      ∀ s : State, s.issueLine (.msg init text) = s) ∧
    (∀ k, expandLine (.wait k) = .ok (List.replicate k (issueOp .nop)))

/-- A line is refused exactly when it has a literal out of range, is a CRCQ without a byte, or is a MSG whose
text does not decode; a refused line issues nothing (30_encoding.md section 5; log entry 11). Out of range is a
16-bit literal of 0x10000 or more and a byte literal of 0x100 or more; a line without a literal never is. -/
def Obligations.OnlyTheseLinesAreRefused : Prop :=
  (∀ l : Line,
    ((∃ e, expandLine l = .error e) ↔
      l.wellFormed = false ∨ ∃ init text e, l = .msg init text ∧ hexDecode text = .error e) ∧
    (l.inRange = false → expandLine l = .error .outOfRange) ∧
    (∀ e, expandLine l = .error e → ∀ s : State, s.issueLine l = s)) ∧
  (∀ n : Nat,
    (expandLine (.load n) = .error .outOfRange ↔ 0x10000 ≤ n) ∧
    (expandLine (.expect n) = .error .outOfRange ↔ 0x10000 ≤ n) ∧
    (expandLine (.feed n) = .error .outOfRange ↔ 0x100 ≤ n) ∧
    (∀ b : Nat, expandLine (.loadFeed n b) = .error .outOfRange ↔ 0x10000 ≤ n ∨ 0x100 ≤ b) ∧
    (∀ bytes : List Nat,
      (expandLine (.crc n bytes) = .error .outOfRange ↔ 0x10000 ≤ n ∨ ∃ b ∈ bytes, 0x100 ≤ b) ∧
      (expandLine (.crcq n bytes) = .error .outOfRange ↔ 0x10000 ≤ n ∨ ∃ b ∈ bytes, 0x100 ≤ b)) ∧
    (∀ text : List Char, expandLine (.msg n text) = .error .outOfRange ↔ 0x10000 ≤ n) ∧
    (expandLine (.crcq n []) = .error .noByte ↔ n < 0x10000)) ∧
  (∀ (l : Line) (e : LineError), l = .nop ∨ l = .reset ∨ l = .read ∨ (∃ k, l = .wait k) → expandLine l ≠ .error e)

/-- What the lines of one operation or one host action stand for, every literal in range (30_encoding.md section
5): one edge with the operation's word, its fields those of the literals; for READ and EXPECT the read itself and
no edge. -/
def Obligations.SingleLinesExpand : Prop :=
  expandLine .nop = .ok (edges [0x0000000#27]) ∧ expandLine .reset = .ok (edges [0x4000000#27]) ∧
  expandLine .read = .ok [.read] ∧
  (∀ n : Nat, n < 0x10000 →
    expandLine (.expect n) = .ok [.expect (BitVec.ofNat 16 n)] ∧
    expandLine (.load n) = .ok (edges [0b010#3 ++ BitVec.ofNat 16 n ++ 0x00#8]) ∧
    ∀ b : Nat, b < 0x100 →
      expandLine (.loadFeed n b) = .ok (edges [0b011#3 ++ BitVec.ofNat 16 n ++ BitVec.ofNat 8 b])) ∧
  (∀ b : Nat, b < 0x100 → expandLine (.feed b) = .ok (edges [0b001#3 ++ 0x0000#16 ++ BitVec.ofNat 8 b]))

/-- A result is written as four hex digits, `crc_out[15:8]` first, which read back as its value
(20_memory.md section 2; 95_test_vectors.md section 1). -/
def Obligations.RenderedResultReadsBack : Prop :=
  (∀ v : Word, (hex4 v).length = 4 ∧ readHexDigits 0 (hex4 v) = some v.toNat ∧
    hex4 v = hex2 (v.extractLsb' 8 8) ++ hex2 (v.extractLsb' 0 8) ∧
    ∀ c ∈ hex4 v, (0x30 ≤ c.toNat ∧ c.toNat ≤ 0x39) ∨ (0x41 ≤ c.toNat ∧ c.toNat ≤ 0x46)) ∧
  hex4 0xBFD2#16 = ['B', 'F', 'D', '2']
end

