-- ==== Sys2Proof/Laws/CrcSteps.lean ====
section
/-! SUPPORT. The bit step, the byte step and `compute`: their equations and their linearity. -/

namespace Sys2Proof.Machine

/-- The bit step as one expression: a shift, and the polynomial when `mix` is 1. -/
theorem step1_eq_xor (r : Word) (b : Bool) :
    step1 r b = (r >>> 1) ^^^ (if (r.getLsbD 0 ^^ b) then Config.poly else 0#16) := by
  unfold step1
  cases (r.getLsbD 0 ^^ b) <;> simp

/-- Bit 0 of the register before the step is used up; the other bits move down by one. -/
theorem step1_getLsbD (r : Word) (b : Bool) (i : Nat) :
    (step1 r b).getLsbD i
      = (r.getLsbD (i + 1) ^^ ((r.getLsbD 0 ^^ b) && Config.poly.getLsbD i)) := by
  rw [step1_eq_xor]
  cases hm : (r.getLsbD 0 ^^ b) <;> simp [Nat.add_comm 1 i]

/-- The bit step is linear over GF(2). -/
theorem step1_xor (r r' : Word) (b b' : Bool) :
    step1 (r ^^^ r') (b ^^ b') = step1 r b ^^^ step1 r' b' := by
  apply BitVec.eq_of_getLsbD_eq
  intro i hi
  simp only [BitVec.getLsbD_xor, step1_getLsbD]
  cases r.getLsbD 0 <;> cases r'.getLsbD 0 <;> cases b <;> cases b' <;>
    cases Config.poly.getLsbD i <;> simp

@[simp] theorem bitSteps_zero (r : Word) (d : Byte) : bitSteps 0 r d = r := rfl

theorem bitSteps_succ (k : Nat) (r : Word) (d : Byte) :
    bitSteps (k + 1) r d = step1 (bitSteps k r d) (d.getLsbD k) := rfl

/-- The first `k` bit steps are linear over GF(2). -/
theorem bitSteps_xor (k : Nat) (r r' : Word) (d d' : Byte) :
    bitSteps k (r ^^^ r') (d ^^^ d') = bitSteps k r d ^^^ bitSteps k r' d' := by
  induction k with
  | zero => rfl
  | succ k ih => simp only [bitSteps_succ, ih, BitVec.getLsbD_xor, step1_xor]

/-- The byte step is linear over GF(2). -/
theorem step8_xor (r r' : Word) (d d' : Byte) :
    step8 (r ^^^ r') (d ^^^ d') = step8 r d ^^^ step8 r' d' := bitSteps_xor _ r r' d d'

/-- The byte step written out: eight bit steps, bit 0 of the byte first. -/
theorem step8_eq_nested (r : Word) (d : Byte) :
    step8 r d = step1 (step1 (step1 (step1 (step1 (step1 (step1 (step1 r (d.getLsbD 0)) (d.getLsbD 1))
      (d.getLsbD 2)) (d.getLsbD 3)) (d.getLsbD 4)) (d.getLsbD 5)) (d.getLsbD 6)) (d.getLsbD 7) := rfl

/-- The set bits of the polynomial are 15, 10 and 3. -/
theorem poly_getLsbD (i : Nat) : Config.poly.getLsbD i = (i == 15 || i == 10 || i == 3) := by
  by_cases h : i < 16
  · exact (by decide : ∀ j, j < 16 → Config.poly.getLsbD j = (j == 15 || j == 10 || j == 3)) i h
  · rw [BitVec.getLsbD_of_ge _ _ (by omega)]
    simp [show i ≠ 15 by omega, show i ≠ 10 by omega, show i ≠ 3 by omega]

@[simp] theorem step8_zero : step8 0#16 0#8 = 0#16 := by decide

/-- A byte fed to the zero register acts as the same byte standing in the register. -/
theorem step8_zero_left (d : Byte) : step8 0#16 d = step8 (d.zeroExtend 16) 0#8 := by
  revert d
  decide +kernel

/-- A register whose low byte is zero is shifted down by the byte 0. -/
theorem step8_high (d : Byte) : step8 (d.zeroExtend 16 <<< 8) 0#8 = d.zeroExtend 16 := by
  revert d
  decide +kernel

/-- A register is its high byte and its low byte. -/
theorem word_eq_bytes (r : Word) :
    r = ((r.extractLsb' 8 8).zeroExtend 16 <<< 8) ^^^ (r.extractLsb' 0 8).zeroExtend 16 := by
  apply BitVec.eq_of_getLsbD_eq
  intro i hi
  by_cases h : i < 8
  · simp [h, hi]
  · simp [h, hi, show i - 8 < 8 by omega, show 8 + (i - 8) = i by omega]

/-- The byte step reads the register's low byte only through its XOR with the data byte. -/
theorem step8_split (r : Word) (d : Byte) :
    step8 r d = (r >>> 8) ^^^ step8 0#16 (r.extractLsb' 0 8 ^^^ d) := by
  have hr := word_eq_bytes r
  have hs : (r.extractLsb' 8 8).zeroExtend 16 = r >>> 8 := by
    apply BitVec.eq_of_getLsbD_eq
    intro i hi
    by_cases h : i < 8
    · simp [h, hi]
    · simp [h, BitVec.getLsbD_of_ge r (8 + i) (by omega)]
  calc step8 r d
      = step8 (((r.extractLsb' 8 8).zeroExtend 16 <<< 8) ^^^ (r.extractLsb' 0 8).zeroExtend 16) (0#8 ^^^ d) := by
        rw [← hr]; simp
    _ = step8 ((r.extractLsb' 8 8).zeroExtend 16 <<< 8) 0#8 ^^^ step8 ((r.extractLsb' 0 8).zeroExtend 16) d :=
        step8_xor _ _ _ _
    _ = (r >>> 8) ^^^ step8 ((r.extractLsb' 0 8).zeroExtend 16 ^^^ 0#16) (0#8 ^^^ d) := by
        rw [step8_high, hs]; simp
    _ = (r >>> 8) ^^^ step8 0#16 (r.extractLsb' 0 8 ^^^ d) := by
        rw [step8_xor, ← step8_zero_left, ← step8_xor]; simp

theorem compute_cons (d : Byte) (data : List Byte) (initial : Word) :
    compute (d :: data) initial = compute data (step8 initial d) := rfl

theorem compute_append (xs ys : List Byte) (initial : Word) :
    compute (xs ++ ys) initial = compute ys (compute xs initial) := List.foldl_append

end Sys2Proof.Machine
end

