-- ==== Sys2Proof/Laws/Encoding.lean ====
section
/-! SUPPORT. The fields of an encoded operation, and the ports driven with a word. -/

namespace Sys2Proof.Machine

@[simp] theorem samplePort_drivePort {w : Nat} (v : BitVec w) : samplePort (drivePort v) = some v := by
  simp [samplePort, drivePort, Port.clean]

/-- The bits of a word at the five ports, joined again, are the word. -/
theorem joined_ports (w : OpWord) :
    w.extractLsb' 26 1 ++ w.extractLsb' 25 1 ++ w.extractLsb' 24 1 ++ w.extractLsb' 8 16 ++
      w.extractLsb' 0 8 = w := by
  apply BitVec.eq_of_getLsbD_eq
  intro i hi
  simp only [BitVec.getLsbD_append, BitVec.getLsbD_extractLsb']
  by_cases h8 : i < 8
  · simp [h8]
  by_cases h24 : i < 24
  · simp [h8, show i - 8 < 16 by omega, show 8 + (i - 8) = i by omega]
  by_cases h25 : i = 24
  · subst h25; simp
  by_cases h26 : i = 25
  · subst h26; simp
  obtain rfl : i = 26 := by omega
  simp

/-- Ports driven with a word are sampled as that word (R60). -/
@[simp] theorem samplePins_drivePins (w : OpWord) : samplePins (drivePins w) = some w := by
  simp only [samplePins, drivePins, samplePort_drivePort]
  exact congrArg some (joined_ports w)

/-- The ports are sampled as a word exactly when every bit is clean (R166). -/
theorem samplePins_isSome_iff_clean (p : Pins) : (samplePins p).isSome = p.clean := by
  obtain ⟨a, b, c, d, e⟩ := p
  cases ha : a.clean <;> cases hb : b.clean <;> cases hc : c.clean <;> cases hd : d.clean <;>
    cases he : e.clean <;> simp [samplePins, samplePort, Pins.clean, ha, hb, hc, hd, he]

/-- An unclean bit leaves no word. -/
theorem samplePins_eq_none_of_not_clean {p : Pins} (h : p.clean = false) : samplePins p = none := by
  have := samplePins_isSome_iff_clean p
  rw [h] at this
  simpa using this

/-- Clean ports give a word. -/
theorem samplePins_of_clean {p : Pins} (h : p.clean = true) : ∃ w, samplePins p = some w := by
  have := samplePins_isSome_iff_clean p
  rw [h] at this
  exact Option.isSome_iff_exists.mp this

/-! ## A word as its three parts: the controls IW[26:24], `init_value` and `data` -/

theorem joined_getLsbD (c : BitVec 3) (v : Word) (d : Byte) (i : Nat) :
    (c ++ v ++ d).getLsbD i =
      if i < 8 then d.getLsbD i else if i < 24 then v.getLsbD (i - 8) else c.getLsbD (i - 24) := by
  simp only [BitVec.getLsbD_append]
  by_cases h : i < 8
  · simp [h]
  by_cases h2 : i < 24
  · simp [h, h2, show i - 8 < 16 by omega]
  · simp [h, h2, show ¬ (i - 8 < 16) by omega, Nat.sub_sub]

theorem joined_controls (c : BitVec 3) (v : Word) (d : Byte) :
    (c ++ v ++ d : OpWord).extractLsb' 24 3 = c := by
  apply BitVec.eq_of_getLsbD_eq
  intro i hi
  rw [BitVec.getLsbD_extractLsb', joined_getLsbD]
  simp [hi, show ¬ (24 + i < 8) by omega]

theorem joined_initValue (c : BitVec 3) (v : Word) (d : Byte) :
    (c ++ v ++ d : OpWord).extractLsb' 8 16 = v := by
  apply BitVec.eq_of_getLsbD_eq
  intro i hi
  rw [BitVec.getLsbD_extractLsb', joined_getLsbD]
  simp [hi, show 8 + i < 24 by omega]

theorem joined_data (c : BitVec 3) (v : Word) (d : Byte) : (c ++ v ++ d : OpWord).extractLsb' 0 8 = d := by
  apply BitVec.eq_of_getLsbD_eq
  intro i hi
  rw [BitVec.getLsbD_extractLsb', joined_getLsbD]
  simp [hi]

/-- Every word is its three parts joined. -/
theorem exists_joined (w : OpWord) : ∃ (c : BitVec 3) (v : Word) (d : Byte), w = c ++ v ++ d := by
  refine ⟨w.extractLsb' 24 3, w.extractLsb' 8 16, w.extractLsb' 0 8, ?_⟩
  apply BitVec.eq_of_getLsbD_eq
  intro i hi
  rw [joined_getLsbD]
  simp only [BitVec.getLsbD_extractLsb']
  by_cases h : i < 8
  · simp [h]
  by_cases h2 : i < 24
  · simp [h, h2, show i - 8 < 16 by omega, show 8 + (i - 8) = i by omega]
  · simp [h, h2, show i - 24 < 3 by omega, show 24 + (i - 24) = i by omega]

/-- Decoding reads the parts: reset first, then the two control bits (R62). -/
theorem decode_joined (c : BitVec 3) (v : Word) (d : Byte) :
    decode (c ++ v ++ d : OpWord) =
      if c.getLsbD 2 then .reset
      else if c.extractLsb' 0 2 = 3#2 then .loadFeed v d
      else if c.extractLsb' 0 2 = 2#2 then .load v
      else if c.extractLsb' 0 2 = 1#2 then .feed d
      else .nop := by
  have hr : OpWord.rst (c ++ v ++ d : OpWord) = c.getLsbD 2 := by
    unfold OpWord.rst
    rw [joined_getLsbD]
    simp
  have hc : OpWord.controls (c ++ v ++ d : OpWord) = c.extractLsb' 0 2 := by
    apply BitVec.eq_of_getLsbD_eq
    intro i hi
    unfold OpWord.controls
    rw [BitVec.getLsbD_extractLsb', joined_getLsbD, BitVec.getLsbD_extractLsb']
    simp [hi, show ¬ (24 + i < 8) by omega]
  unfold decode
  rw [hr, hc]
  simp only [OpWord.initValue, OpWord.data, joined_initValue, joined_data]

end Sys2Proof.Machine
end

