-- ==== Sys2Proof/Laws/PerInstr.lean ====
section
/-! SUPPORT. Statements about every operation as syntax, one lemma per constructor. -/

namespace Sys2Proof.Laws.RowMatch

/-- The word of the operation selects the row of the opcode map that bears the operation's name (R67), and no
ignored bit of it is set (R68). -/
def Statement (i : Instr) : Prop :=
  (∃ r ∈ opcodeMap, r.op = i.op ∧ encode i &&& r.mask = r.pattern) ∧ encode i &&& ~~~usedBits i = 0#27

theorem nop : Statement .nop := by
  refine ⟨⟨⟨.NOP, 0x0000000#27, 0x7000000#27⟩, ?_⟩, ?_⟩ <;> decide

theorem reset : Statement .reset := by
  refine ⟨⟨⟨.RESET, 0x4000000#27, 0x4000000#27⟩, ?_⟩, ?_⟩ <;> decide

/-- Masking a word of the encoder's shape masks its three parts. -/
theorem joined_and (c c' : BitVec 3) (v v' : Word) (d d' : Byte) :
    (c ++ v ++ d) &&& (c' ++ v' ++ d') = (c &&& c') ++ (v &&& v') ++ (d &&& d') := by
  rw [BitVec.and_append, BitVec.and_append]

theorem feed (d : Byte) : Statement (.feed d) := by
  refine ⟨⟨⟨.FEED, 0x1000000#27, 0x7000000#27⟩, by decide, rfl, ?_⟩, ?_⟩
  · exact (joined_and 1 7 0 0 d 0).trans (by simp)
  · have hm : ~~~(0x70000FF#27) = (0#3 ++ 0xFFFF#16 ++ 0#8 : OpWord) := by decide
    rw [show usedBits (.feed d) = 0x70000FF#27 from rfl, hm]
    exact (joined_and 1 0 0 0xFFFF d 0).trans (by simp)

theorem load (v : Word) : Statement (.load v) := by
  refine ⟨⟨⟨.LOAD, 0x2000000#27, 0x7000000#27⟩, by decide, rfl, ?_⟩, ?_⟩
  · exact (joined_and 2 7 v 0 0 0).trans (by simp)
  · have hm : ~~~(0x7FFFF00#27) = (0#3 ++ 0#16 ++ 0xFF#8 : OpWord) := by decide
    rw [show usedBits (.load v) = 0x7FFFF00#27 from rfl, hm]
    exact (joined_and 2 0 v 0 0 0xFF).trans (by simp)

theorem loadFeed (v : Word) (d : Byte) : Statement (.loadFeed v d) := by
  refine ⟨⟨⟨.LOAD_FEED, 0x3000000#27, 0x7000000#27⟩, by decide, rfl, ?_⟩, ?_⟩
  · exact (joined_and 3 7 v 0 d 0).trans (by simp)
  · have hm : ~~~(0x7FFFFFF#27) = (0#3 ++ 0#16 ++ 0#8 : OpWord) := by decide
    rw [show usedBits (.loadFeed v d) = 0x7FFFFFF#27 from rfl, hm]
    exact (joined_and 3 0 v 0 d 0).trans (by simp)

end Sys2Proof.Laws.RowMatch
end

