-- ==== Sys2Proof/Laws/State.lean ====
section
/-! SUPPORT. One lemma per field per update of State, and what each update does to `defined`. -/

namespace Sys2Proof.Machine

@[simp] theorem State.writeCrc_crc (v : Word) (s : State) : (s.writeCrc v).crc = some v := rfl
@[simp] theorem State.writeCrc_fault (v : Word) (s : State) : (s.writeCrc v).fault = s.fault := rfl
@[simp] theorem State.writeCrc_pending (v : Word) (s : State) : (s.writeCrc v).pending = s.pending := rfl
@[simp] theorem State.writeCrc_observed (v : Word) (s : State) : (s.writeCrc v).observed = s.observed := rfl

@[simp] theorem State.feedCrc_crc (d : Byte) (s : State) : (s.feedCrc d).crc = s.crc.map (step8 · d) := rfl
@[simp] theorem State.feedCrc_fault (d : Byte) (s : State) : (s.feedCrc d).fault = s.fault := rfl
@[simp] theorem State.feedCrc_pending (d : Byte) (s : State) : (s.feedCrc d).pending = s.pending := rfl
@[simp] theorem State.feedCrc_observed (d : Byte) (s : State) : (s.feedCrc d).observed = s.observed := rfl

@[simp] theorem State.recordFault_crc (f : Fault) (s : State) : (s.recordFault f).crc = s.crc := rfl
@[simp] theorem State.recordFault_fault (f : Fault) (s : State) : (s.recordFault f).fault = some f := rfl
@[simp] theorem State.recordFault_pending (f : Fault) (s : State) : (s.recordFault f).pending = s.pending := rfl
@[simp] theorem State.recordFault_observed (f : Fault) (s : State) : (s.recordFault f).observed = s.observed := rfl

@[simp] theorem State.recordRead_crc (o : Observation) (s : State) : (s.recordRead o).crc = s.crc := rfl
@[simp] theorem State.recordRead_fault (o : Observation) (s : State) : (s.recordRead o).fault = s.fault := rfl
@[simp] theorem State.recordRead_pending (o : Observation) (s : State) : (s.recordRead o).pending = s.pending := rfl
@[simp] theorem State.recordRead_observed (o : Observation) (s : State) : (s.recordRead o).observed = s.observed ++ [o] := rfl

@[simp] theorem State.losePower_crc (s : State) : (s.losePower).crc = none := rfl
@[simp] theorem State.losePower_fault (s : State) : (s.losePower).fault = s.fault := rfl
@[simp] theorem State.losePower_pending (s : State) : (s.losePower).pending = s.pending := rfl
@[simp] theorem State.losePower_observed (s : State) : (s.losePower).observed = s.observed := rfl

@[simp] theorem State.presentWord_crc (w : Nat) (s : State) : (s.presentWord w).crc = s.crc := rfl
@[simp] theorem State.presentWord_fault (w : Nat) (s : State) : (s.presentWord w).fault = s.fault := rfl
@[simp] theorem State.presentWord_pending (w : Nat) (s : State) : (s.presentWord w).pending = .edge (drivePins (BitVec.ofNat 27 w)) :: s.pending := rfl
@[simp] theorem State.presentWord_observed (w : Nat) (s : State) : (s.presentWord w).observed = s.observed := rfl

@[simp] theorem State.writeCrc_defined (v : Word) (s : State) : (s.writeCrc v).defined = true := rfl
@[simp] theorem State.recordFault_defined (f : Fault) (s : State) : (s.recordFault f).defined = s.defined := rfl
@[simp] theorem State.recordRead_defined (o : Observation) (s : State) : (s.recordRead o).defined = s.defined := rfl
@[simp] theorem State.losePower_defined (s : State) : s.losePower.defined = false := rfl

@[simp] theorem State.feedCrc_defined (d : Byte) (s : State) : (s.feedCrc d).defined = s.defined := by
  simp [State.defined]

theorem State.defined_iff_exists_crc (s : State) : s.defined = true ↔ ∃ v, s.crc = some v := by
  simp [State.defined, Option.isSome_iff_exists]

theorem State.not_defined_iff_crc_none (s : State) : s.defined = false ↔ s.crc = none := by
  simp [State.defined]

end Sys2Proof.Machine
end

