-- ==== Sys2Proof/Laws/Step.lean ====
section
/-! SUPPORT. What one operation, one action of the host and one step can do, each said once, and how runs
are put together. -/

namespace Sys2Proof.Machine

/-- What an operation leaves in the register, from what it held (R84 to R88). -/
def crcAfter (i : Instr) (c : Option Word) : Option Word :=
  match i with
  | .nop => c
  | .feed d => c.map (step8 · d)
  | .load v => some v
  | .loadFeed v d => some (step8 v d)
  | .reset => some Config.resetValue

@[simp] theorem crcAfter_nop (c : Option Word) : crcAfter .nop c = c := rfl
@[simp] theorem crcAfter_feed_some (d : Byte) (r : Word) : crcAfter (.feed d) (some r) = some (step8 r d) := rfl
@[simp] theorem crcAfter_feed_none (d : Byte) : crcAfter (.feed d) none = none := rfl
@[simp] theorem crcAfter_load (v : Word) (c : Option Word) : crcAfter (.load v) c = some v := rfl
@[simp] theorem crcAfter_loadFeed (v : Word) (d : Byte) (c : Option Word) :
    crcAfter (.loadFeed v d) c = some (step8 v d) := rfl
@[simp] theorem crcAfter_reset (c : Option Word) : crcAfter .reset c = some Config.resetValue := rfl

/-- What operations, one after the other, leave in the register. -/
def crcAfterAll : List Instr → Option Word → Option Word
  | [], c => c
  | i :: is, c => crcAfterAll is (crcAfter i c)

@[simp] theorem crcAfterAll_nil (c : Option Word) : crcAfterAll [] c = c := rfl
@[simp] theorem crcAfterAll_cons (i : Instr) (is : List Instr) (c : Option Word) :
    crcAfterAll (i :: is) c = crcAfterAll is (crcAfter i c) := rfl

theorem crcAfterAll_append (is js : List Instr) (c : Option Word) :
    crcAfterAll (is ++ js) c = crcAfterAll js (crcAfterAll is c) := by
  induction is generalizing c with
  | nil => rfl
  | cons i is ih => exact ih _

/-- Every operation answers a next state in which only the register may differ. -/
theorem exec_eq_next (i : Instr) (s : State) : exec i s = .next { s with crc := crcAfter i s.crc } := by
  cases i <;> rfl

/-- An operation that starts a message leaves a value that does not depend on the register before it. -/
theorem crcAfter_of_startsMessage {i : Instr} (h : i.startsMessage = true) (c c' : Option Word) :
    crcAfter i c = crcAfter i c' := by
  cases i <;> simp_all [crcAfter, Instr.startsMessage]

/-- The register holds a value after an operation if it did before or the operation starts a message. -/
theorem crcAfter_isSome (i : Instr) (c : Option Word) :
    (crcAfter i c).isSome = (c.isSome || i.startsMessage) := by
  cases i <;> cases c <;> rfl

theorem sampleCrcOut_of_some {s : State} {v : Word} (h : s.crc = some v) : sampleCrcOut s = .ok v := by
  simp [sampleCrcOut, h]

theorem sampleCrcOut_of_none {s : State} (h : s.crc = none) : sampleCrcOut s = .error .undefinedCrc := by
  simp [sampleCrcOut, h]

theorem readCrcOut_of_some (e : Option Word) {s : State} {v : Word} (h : s.crc = some v) :
    readCrcOut e s = .next (s.recordRead ⟨v, e⟩) := by
  simp [readCrcOut, sampleCrcOut_of_some h]

theorem readCrcOut_of_none (e : Option Word) {s : State} (h : s.crc = none) :
    readCrcOut e s = .next (s.recordFault .undefinedCrc) := by
  simp [readCrcOut, sampleCrcOut_of_none h]

theorem clockEdge_of_word {p : Pins} {w : OpWord} (h : samplePins p = some w) (s : State) :
    clockEdge p s = .next { s with crc := crcAfter (decode w) s.crc } := by
  simp [clockEdge, h, exec_eq_next]

theorem clockEdge_of_not_clean {p : Pins} (h : p.clean = false) (s : State) :
    clockEdge p s = .refused .uncleanInput := by
  simp [clockEdge, samplePins_eq_none_of_not_clean h]

theorem step_of_nil {s : State} (h : s.pending = []) : step s = .next s := by
  simp [step, h, stoppedClock]

theorem step_of_cons {s : State} {a : HostAction} {rest : List HostAction} (h : s.pending = a :: rest) :
    step s = perform a { s with pending := rest } := by
  simp [step, h]

/-- A read of `crc_out`: READ, or EXPECT with the value it asserts. -/
def readAction : Option Word → HostAction
  | none => .read
  | some v => .expect v

theorem perform_readAction (e : Option Word) (s : State) : perform (readAction e) s = readCrcOut e s := by
  cases e <;> rfl

theorem step_read_of_some {s : State} {e : Option Word} {rest : List HostAction} {v : Word}
    (hp : s.pending = readAction e :: rest) (hc : s.crc = some v) :
    step s = .next { s with pending := rest, observed := s.observed ++ [⟨v, e⟩] } := by
  rw [step_of_cons hp, perform_readAction, readCrcOut_of_some e (s := { s with pending := rest }) hc]
  rfl

theorem step_read_of_none {s : State} {e : Option Word} {rest : List HostAction}
    (hp : s.pending = readAction e :: rest) (hc : s.crc = none) :
    step s = .next { s with pending := rest, fault := some .undefinedCrc } := by
  rw [step_of_cons hp, perform_readAction, readCrcOut_of_none e (s := { s with pending := rest }) hc]
  rfl

theorem step_edge {s : State} {p : Pins} {w : OpWord} {rest : List HostAction}
    (hp : s.pending = .edge p :: rest) (hw : samplePins p = some w) :
    step s = .next { s with crc := crcAfter (decode w) s.crc, pending := rest } := by
  rw [step_of_cons hp, perform, clockEdge_of_word hw]

theorem step_powerCycle {s : State} {rest : List HostAction} (hp : s.pending = .powerCycle :: rest) :
    step s = .next { s with crc := none, pending := rest } := by
  rw [step_of_cons hp]
  rfl

/-- Everything a step can do when it answers a next state. -/
theorem step_cases {s t : State} (h : step s = .next t) :
    (s.pending = [] ∧ t = s) ∨
    (∃ p w rest, s.pending = .edge p :: rest ∧ samplePins p = some w ∧
      t = { s with crc := crcAfter (decode w) s.crc, pending := rest }) ∨
    (∃ e rest v, s.pending = readAction e :: rest ∧ s.crc = some v ∧
      t = { s with pending := rest, observed := s.observed ++ [⟨v, e⟩] }) ∨
    (∃ e rest, s.pending = readAction e :: rest ∧ s.crc = none ∧
      t = { s with pending := rest, fault := some .undefinedCrc }) ∨
    (∃ rest, s.pending = .powerCycle :: rest ∧ t = { s with crc := none, pending := rest }) := by
  rcases hp : s.pending with _ | ⟨_ | _ | v | _, rest⟩
  · rw [step_of_nil hp] at h
    exact .inl ⟨rfl, (Host.Outcome.next.inj h).symm⟩
  · rename_i p
    cases hw : samplePins p with
    | none => simp [step_of_cons hp, perform, clockEdge, hw] at h
    | some w =>
      rw [step_edge hp hw] at h
      exact .inr (.inl ⟨p, w, rest, rfl, hw, (Host.Outcome.next.inj h).symm⟩)
  all_goals try (rw [step_powerCycle hp] at h; exact .inr (.inr (.inr (.inr ⟨rest, rfl, (Host.Outcome.next.inj h).symm⟩))))
  · cases hc : s.crc with
    | none =>
      rw [step_read_of_none (e := none) hp hc, hc] at h
      exact .inr (.inr (.inr (.inl ⟨none, rest, rfl, rfl, (Host.Outcome.next.inj h).symm⟩)))
    | some r =>
      rw [step_read_of_some (e := none) hp hc, hc] at h
      exact .inr (.inr (.inl ⟨none, rest, r, rfl, rfl, (Host.Outcome.next.inj h).symm⟩))
  · cases hc : s.crc with
    | none =>
      rw [step_read_of_none (e := some v) hp hc, hc] at h
      exact .inr (.inr (.inr (.inl ⟨some v, rest, rfl, rfl, (Host.Outcome.next.inj h).symm⟩)))
    | some r =>
      rw [step_read_of_some (e := some v) hp hc, hc] at h
      exact .inr (.inr (.inl ⟨some v, rest, r, rfl, rfl, (Host.Outcome.next.inj h).symm⟩))

end Sys2Proof.Machine

namespace Sys2Proof.Safety

open Sys2Proof.Machine

@[simp] theorem run_zero (s : State) : run 0 s = .next s := rfl

theorem run_succ_of_next {s t : State} (h : step s = .next t) (k : Nat) : run (k + 1) s = run k t := by
  simp only [run, Host.Core.run]
  rw [show Sys2Proof.core.step s = .next t from h]

/-- A run of `j + k` steps is a run of `j` steps and then one of `k`. -/
theorem run_add_of_next {s t : State} {j : Nat} (h : run j s = .next t) (k : Nat) :
    run (j + k) s = run k t := by
  induction j generalizing s with
  | zero => cases h; simp
  | succ j ih =>
    rw [Nat.succ_add]
    cases hs : step s with
    | next u => rw [run_succ_of_next hs] at h ⊢; exact ih h
    | fault f => simp only [run, Host.Core.run, show Sys2Proof.core.step s = .fault f from hs] at h; cases h
    | refused r => simp only [run, Host.Core.run, show Sys2Proof.core.step s = .refused r from hs] at h; cases h

/-- Induction over runs, once: what every step keeps, every run keeps. -/
theorem run_keeps {P : State → Prop} (hstep : ∀ s t, P s → step s = .next t → P t) {k : Nat} {s t : State}
    (hs : P s) (h : run k s = .next t) : P t := by
  induction k generalizing s with
  | zero => cases h; exact hs
  | succ k ih =>
    cases hn : step s with
    | next u => rw [run_succ_of_next hn] at h; exact ih (hstep s u hs hn) h
    | fault f => simp only [run, Host.Core.run, show Sys2Proof.core.step s = .fault f from hn] at h; cases h
    | refused r => simp only [run, Host.Core.run, show Sys2Proof.core.step s = .refused r from hn] at h; cases h

/-- Operations one after the other answer a next state in which only the register may differ. -/
theorem execAll_eq_next (is : List Instr) (s : State) :
    execAll is s = .next { s with crc := crcAfterAll is s.crc } := by
  induction is generalizing s with
  | nil => rfl
  | cons i is ih => simp only [execAll, exec_eq_next, ih, crcAfterAll_cons]

@[simp] theorem edges_nil : edges [] = [] := rfl
@[simp] theorem edges_cons (w : OpWord) (ws : List OpWord) :
    edges (w :: ws) = .edge (drivePins w) :: edges ws := rfl

/-- A run over edges performs their operations in order. -/
theorem run_edges {ws : List OpWord} {s : State} {later : List HostAction} (h : s.pending = edges ws ++ later) :
    run ws.length s = .next { s with crc := crcAfterAll (ws.map decode) s.crc, pending := later } := by
  induction ws generalizing s with
  | nil => simp only [edges_nil, List.nil_append] at h; subst h; rfl
  | cons w ws ih =>
    have hs := step_edge (s := s) (rest := edges ws ++ later) h (samplePins_drivePins w)
    rw [List.length_cons, run_succ_of_next hs, ih rfl]
    rfl

end Sys2Proof.Safety
end

