-- ==== Sys2Proof/Laws/Text.lean ====
section
/-! SUPPORT. The textual form's functions, one lemma each: trimming, splitting, hex digits and literals. -/

namespace Sys2Proof.Machine

@[simp] theorem hexVal?_hexDigit (n : BitVec 4) : hexVal? (hexDigit n) = some n := by
  revert n
  decide +kernel

@[simp] theorem isStripped_hexDigit (n : BitVec 4) : isStripped (hexDigit n) = false := by
  revert n
  decide +kernel

theorem hexDigit_ne_space (n : BitVec 4) : hexDigit n ≠ ' ' := by
  revert n
  decide +kernel

theorem hexDigit_ne_comma (n : BitVec 4) : hexDigit n ≠ ',' := by
  revert n
  decide +kernel

/-- A text that begins and ends with other characters than a space is trimmed already. -/
theorem trimSpaces_of_ends {cs : List Char} (hfirst : cs.head? ≠ some ' ') (hlast : cs.getLast? ≠ some ' ') :
    trimSpaces cs = cs := by
  have hdrop : ∀ ds : List Char, ds.head? ≠ some ' ' → ds.dropWhile (· == ' ') = ds := by
    intro ds hd
    cases ds with
    | nil => rfl
    | cons c ds =>
      have : c ≠ ' ' := by simpa using hd
      simp [this]
  unfold trimSpaces
  rw [hdrop cs hfirst, hdrop cs.reverse (by simpa using hlast), List.reverse_reverse]

/-- A text without a comma is one part. -/
theorem splitCommas_of_no_comma {cs : List Char} (h : ∀ c ∈ cs, c ≠ ',') : splitCommas cs = [cs] := by
  induction cs with
  | nil => rfl
  | cons c cs ih =>
    have hc : c ≠ ',' := h c (by simp)
    simp [splitCommas, ih (fun d hd => h d (by simp [hd])), hc]

/-- A part without a comma, then a comma, then the rest. -/
theorem splitCommas_append {cs ds : List Char} (h : ∀ c ∈ cs, c ≠ ',') :
    splitCommas (cs ++ ',' :: ds) = cs :: splitCommas ds := by
  induction cs with
  | nil =>
    cases hd : splitCommas ds with
    | nil =>
      cases ds with
      | nil => simp [splitCommas] at hd
      | cons d ds => simp only [splitCommas] at hd; split at hd <;> (try split at hd) <;> simp at hd
    | cons p ps => simp [splitCommas, hd]
  | cons c cs ih =>
    have hc : c ≠ ',' := h c (by simp)
    simp [splitCommas, ih (fun d hd => h d (by simp [hd])), hc]

/-- A line that begins with a mnemonic and a space, and is trimmed. -/
theorem parseLine_of_parts {m rest : List Char} (hm : ∀ c ∈ m, c ≠ ' ') (hne : m ≠ ['M', 'S', 'G'])
    (htrim : trimSpaces (m ++ ' ' :: rest) = m ++ ' ' :: rest) :
    parseLine (m ++ ' ' :: rest) = (readOperands (' ' :: rest)).bind (lineOf m) := by
  have hall : ∀ c ∈ m, (c != ' ') = true := fun c hc => by simpa using hm c hc
  have ht : (m ++ ' ' :: rest).takeWhile (· != ' ') = m := by
    rw [List.takeWhile_append_of_pos hall]
    simp
  have hd : (m ++ ' ' :: rest).dropWhile (· != ' ') = ' ' :: rest := by
    rw [List.dropWhile_append_of_pos hall]
    simp
  unfold parseLine
  simp only [htrim, ht, hd, hne, if_false]

/-- Two hex digits of a byte read after digits of value `acc`. -/
theorem readHexDigits_hex2 (acc : Nat) (b : Byte) (rest : List Char) :
    readHexDigits acc (hex2 b ++ rest) = readHexDigits (256 * acc + b.toNat) rest := by
  have hb : 16 * (b.extractLsb' 4 4).toNat + (b.extractLsb' 0 4).toNat = b.toNat := by
    revert b
    decide +kernel
  have : 16 * (16 * acc + (b.extractLsb' 4 4).toNat) + (b.extractLsb' 0 4).toNat = 256 * acc + b.toNat := by
    omega
  simp only [hex2, List.cons_append, List.nil_append, readHexDigits, hexVal?_hexDigit, this]

/-- Four hex digits of a 16-bit value read after digits of value `acc`. -/
theorem readHexDigits_hex4 (acc : Nat) (v : Word) (rest : List Char) :
    readHexDigits acc (hex4 v ++ rest) = readHexDigits (65536 * acc + v.toNat) rest := by
  rw [hex4, List.append_assoc, readHexDigits_hex2, readHexDigits_hex2]
  congr 1
  have : v.toNat = 256 * (v.extractLsb' 8 8).toNat + (v.extractLsb' 0 8).toNat := by
    have := v.isLt
    simp [BitVec.extractLsb'_toNat, Nat.shiftRight_eq_div_pow]
    omega
  omega

theorem readLiteral_hex2 (b : Byte) : readLiteral ('0' :: 'x' :: hex2 b) = some b.toNat := by
  have := readHexDigits_hex2 0 b []
  simpa [readLiteral, readHexDigits, hex2] using this

theorem readLiteral_hex4 (v : Word) : readLiteral ('0' :: 'x' :: hex4 v) = some v.toNat := by
  have := readHexDigits_hex4 0 v []
  simpa [readLiteral, readHexDigits, hex4, hex2] using this

end Sys2Proof.Machine
end

