-- ==== Sys2Proof/Tests/Slice0.lean ====
section
/-! SUPPORT. The model's own tests. Expected values come from spec/95_test_vectors.md (its section is named) or
from the rule named; none is the model's own answer. After them, one witness per statement with hypotheses. -/

namespace Sys2Proof.Tests

open Sys2Proof Sys2Proof.Machine Sys2Proof.Safety

/-- A small state: this register, and these host actions waiting. -/
def at_ (crc : Option Word) (pending : List HostAction := []) : State := ⟨crc, none, pending, []⟩

/-- The next state of an outcome. -/
def nextOf : Host.Outcome State Fault Refusal → Option State
  | .next s => some s
  | .fault _ => none
  | .refused _ => none

/-- The refusal of an outcome. -/
def refusalOf : Host.Outcome State Fault Refusal → Option Refusal
  | .next _ => none
  | .fault _ => none
  | .refused r => some r

/-- The register after one step at an edge with this word on the ports (section 2.4's tables). -/
def edgeCrc (w : OpWord) (crc : Option Word) : Option (Option Word) :=
  (nextOf (step (at_ crc (edges [w])))).map (·.crc)

/-- Ports with one unclean bit, bit 3 of `data`, while NOP is selected. -/
def uncleanPins : Pins := { drivePins 0#27 with data := ⟨0#8, 0b1000#8⟩ }

/-! ## Well-formedness: each check refuses an ill-formed term -/

theorem smoke_port : Port.clean (⟨0#8, 0b1000#8⟩ : Port 8) = false := by decide
theorem smoke_pins : uncleanPins.clean = false := by decide
theorem smoke_action : (HostAction.edge uncleanPins).wellFormed = false := by decide
theorem smoke_init16 : isInit16 0x10000 = false := by decide
theorem smoke_byte : isByte 0x100 = false := by decide
theorem smoke_load : (Line.load 0x10000).wellFormed = false := by decide
theorem smoke_feed : (Line.feed 0x100).wellFormed = false := by decide
theorem smoke_loadFeed_init : (Line.loadFeed 0x10000 0).wellFormed = false := by decide
theorem smoke_loadFeed_byte : (Line.loadFeed 0 0x100).wellFormed = false := by decide
theorem smoke_expect : (Line.expect 0x10000).wellFormed = false := by decide
theorem smoke_crc : (Line.crc 0xFFFF [0x34, 0x100]).wellFormed = false := by decide
theorem smoke_crcq : (Line.crcq 0xFFFF [0x100]).wellFormed = false := by decide
theorem smoke_crcq_noByte : (Line.crcq 0xFFFF []).wellFormed = false := by decide
theorem smoke_msg : (Line.msg 0x10000 []).wellFormed = false := by decide
theorem smoke_wellFormed : (Line.crcq 0xFFFF [0xFF]).wellFormed = true := by decide

/-! ## Decoding: words written out from R61 and R67 (rst, init_load, data_valid, init_value, data) -/

theorem test_decode_nop : decode 0b000_1111111111111111_11111111#27 = .nop := by decide
theorem test_decode_feed : decode 0b001_1010101111001101_11101111#27 = .feed 0xEF#8 := by decide
theorem test_decode_load : decode 0b010_0001001000110100_00000000#27 = .load 0x1234#16 := by decide
theorem test_decode_loadFeed : decode 0b011_0001001000110100_01010110#27 = .loadFeed 0x1234#16 0x56#8 := by decide
theorem test_decode_reset : decode 0b100_0000000000000000_00000000#27 = .reset := by decide
theorem test_decode_reset_dominates : decode 0b111_1111111111111111_11111111#27 = .reset := by decide
theorem test_decode_wide : decodeTableWord 32 0x8000000 = none := by decide
theorem test_decode_table : decodeTableWord 32 0x3FFFF34 = some (.loadFeed 0xFFFF#16 0x34#8) := by decide
theorem test_pins_order :
    samplePins ⟨⟨0#1, 0#1⟩, ⟨1#1, 0#1⟩, ⟨0#1, 0#1⟩, ⟨0x1234#16, 0#16⟩, ⟨0x00#8, 0#8⟩⟩ = some 0x2123400#27 := by decide

/-! ## The steps and `compute`: sections 2.1, 2.2, 2.3, 2.5 and 3 (P1) -/

theorem test_step1_mix : step1 0x8000#16 true = 0xC408#16 := by decide
theorem test_step1_shift : step1 0xFFFF#16 true = 0x7FFF#16 := by decide
theorem test_bitSteps_trace : (List.range 9).map (fun k => bitSteps k 0xFFFF#16 0x34#8) =
    [0xFFFF#16, 0xFBF7#16, 0xF9F3#16, 0x7CF9#16, 0xBA74#16, 0xD932#16, 0xE891#16, 0xF040#16, 0x7820#16] := by decide
theorem test_step8_corner : step8 0x1234#16 0xFF#8 = 0x78CD#16 := by decide
theorem test_compute_known : compute [0x34#8, 0x1E#8, 0x08#8, 0xAC#8, 0x0D#8] = 0xBFD2#16 := by decide +kernel
theorem test_compute_init : compute [0x34#8, 0x1E#8, 0x08#8, 0xAC#8, 0x0D#8] 0x1234#16 = 0x8C4C#16 := by decide +kernel
theorem test_compute_high_first :
    compute [0x34#8, 0x1E#8, 0x08#8, 0xAC#8, 0x0D#8, 0xBF#8, 0xD2#8] = 0x6DCE#16 := by decide +kernel

/-! ## One edge: section 2.4 -/

theorem test_nop_holds : edgeCrc 0x0FFFFFF#27 (some 0x5A5A#16) = some (some 0x5A5A#16) := by decide
theorem test_nop_undefined : edgeCrc 0x0000000#27 none = some none := by decide
theorem test_load_ignores_data : edgeCrc 0x2ABCDEF#27 (some 0#16) = some (some 0xABCD#16) := by decide
theorem test_load_defines : edgeCrc 0x2123400#27 none = some (some 0x1234#16) := by decide
theorem test_feed_ignores_init : edgeCrc 0x1ABCDEF#27 (some 0xFFFF#16) = some (some 0x107E#16) := by decide
theorem test_feed_undefined : edgeCrc 0x1ABCDEF#27 none = some none := by decide
theorem test_loadFeed_old_crc : edgeCrc 0x3123456#27 (some 0xBEEF#16) = some (some 0x4006#16) := by decide
theorem test_loadFeed_defines : edgeCrc 0x3FFFF34#27 none = some (some 0x7820#16) := by decide
theorem test_reset_dominates : edgeCrc 0x7FFFFFF#27 (some 0x1234#16) = some (some 0xFFFF#16) := by decide
theorem test_reset_defines : edgeCrc 0x4000000#27 none = some (some 0xFFFF#16) := by decide
theorem test_fetch_word :
    (nextOf (step (State.reset.withFetchWord 32 0x1000034))).map (·.crc) = some (some 0x7820#16) := by decide

/-! ## Host actions: R24, R143, R153, R166 and program P4 -/

theorem test_unclean_refused : refusalOf (step (at_ (some 0#16) [.edge uncleanPins])) = some .uncleanInput := by decide
theorem test_read_observes :
    (nextOf (step (at_ (some 0xBFD2#16) [.read]))).map (·.observed) = some [⟨0xBFD2#16, none⟩] := by decide
theorem test_undefined_read_goes_on :
    (nextOf (run 3 (at_ none [.read, issueOp (.load 0xFFFF#16), issueOp (.feed 0x34#8)]))).map
      (fun s => (s.crc, s.fault, validEnd s)) = some (some 0x7820#16, some .undefinedCrc, false) := by decide
theorem test_powerCycle : (nextOf (step (at_ (some 0#16) [.powerCycle]))).map (·.crc) = some none := by decide
theorem test_expect_failed :
    (nextOf (step (at_ (some 0xBFD2#16) [.expect 0xD2BF#16]))).map expectsMet = some false := by decide
/-- Section 2.4's FEED of 0x34 on 0xFFFF, then EXPECT 0x7820 and READ: a valid end, and the assertion holds. -/
theorem test_valid_end :
    (nextOf (run 3 (at_ (some 0xFFFF#16) [issueOp (.feed 0x34#8), .expect 0x7820#16, .read]))).map
      (fun s => (validEnd s, expectsMet s)) = some (true, true) := by decide

/-! ## The hex decoder: sections 1 and 2.6 -/

theorem test_hex_known : hexDecode ['3', '4', '\t', '1', 'E', '\n', '0', '8', ' ', 'A', 'C', '\t', '0', 'D'] =
    .ok [0x34#8, 0x1E#8, 0x08#8, 0xAC#8, 0x0D#8] := by decide
theorem test_hex_inside_pair : hexDecode ['1', ' ', '2'] = .ok [0x12#8] := by decide
theorem test_hex_case : hexDecode ['a', 'B'] = .ok [0xAB#8] := by decide
theorem test_hex_length_wins : hexDecode ['1', '2', 'G'] = .error .invalidLengthError := by decide
theorem test_hex_prefix : hexDecode ['0', 'x', '1', '2'] = .error .invalidCharacterError := by decide
theorem test_hex_return : hexDecode ['1', '2', '\r', '\n', '\r', '\n', '3', '4'] = .error .invalidCharacterError := by decide
theorem test_hex_return_odd : hexDecode ['1', '2', '\r', '\n', '3', '4'] = .error .invalidLengthError := by decide
theorem test_hex_fullwidth : hexDecode ['１', '２'] = .error .invalidCharacterError := by decide

/-! ## The textual form: R68, R69 and section 1 (S12) -/

theorem test_print_loadFeed : printOp (.loadFeed 0xFFFF#16 0x34#8) =
    ['L', 'O', 'A', 'D', '_', 'F', 'E', 'E', 'D', ' ', '0', 'x', 'F', 'F', 'F', 'F', ',', ' ', '0', 'x', '3', '4'] := by
  decide +kernel
theorem test_parse_crc : parseLine ['C', 'R', 'C', ' ', '0', 'x', '1', '2', '3', '4', ',', ' ', '0', 'x', '3', '4'] =
    some (.crc 0x1234 [0x34]) := by decide +kernel
theorem test_parse_msg : parseLine ['M', 'S', 'G', ' ', '0', 'x', 'F', 'F', 'F', 'F', ',', ' ', '"', '3', '4', '"'] =
    some (.msg 0xFFFF ['3', '4']) := by decide +kernel
theorem test_parse_unknown : parseLine ['F', 'E', 'E', 'D', ' ', '3', '4'] = none := by decide +kernel
theorem test_render : hex4 0x01B4#16 = ['0', '1', 'B', '4'] := by decide
theorem test_crcq_word : (match expandLine (.crcq 0xFFFF [0x31, 0x32]) with | .ok a => a | .error _ => []) =
    edges [0x3FFFF31#27, 0x1000032#27] := by decide

/-! ## Other forms: R94 (spot values are in the table itself), R95, R99 -/

theorem test_closed_form : closedStep8 0x8000#16 0x34#8 = 0x7727#16 := by decide
theorem test_reversed_polynomial : BitVec.reverse Config.normalPoly = Config.poly := by decide
/-- By R99, from section 2.2: the reversal of 0x7820, from the reversals of 0xFFFF and of the byte 0x34. -/
theorem test_msb_byte : msbCompute [0x2C#8] 0xFFFF#16 = 0x041E#16 := by decide

/-! ## Witnesses: a concrete state and operands that meet each statement's hypotheses together -/

/-- Two bytes of the known vector. -/
def msg2 : List Byte := [0x34#8, 0x1E#8]

theorem witness_EncodeThenDecodeIsIdentity : (Instr.loadFeed 0xFFFF#16 0xFF#8).wellFormed = true := by decide
theorem witness_DecodePriority :
    (0x7FFFFFF#27).getLsbD 26 = true ∧
    ((0x3FFFFFF#27).getLsbD 26 = false ∧ (0x3FFFFFF#27).extractLsb' 24 2 = 0b11#2) ∧
    ((0x2FFFFFF#27).getLsbD 26 = false ∧ (0x2FFFFFF#27).extractLsb' 24 2 = 0b10#2) ∧
    ((0x1FFFFFF#27).getLsbD 26 = false ∧ (0x1FFFFFF#27).extractLsb' 24 2 = 0b01#2) ∧
    (0x0FFFFFF#27).extractLsb' 24 3 = 0b000#3 := by decide
theorem witness_ExactlyOneOpcodeRowSelects :
    decode 0x1ABCDEF#27 = .feed 0xEF#8 ∧ decode 0x2ABCDEF#27 = .load 0xABCD#16 ∧
    decode 0x3123456#27 = .loadFeed 0x1234#16 0x56#8 := by decide
/-- FEED with another `init_value`, and RESET with other controls. -/
theorem witness_IgnoredFieldsHaveNoEffect :
    ((0x1ABCD34#27).getLsbD 26 = (0x1000034#27).getLsbD 26 ∧
      (0x1ABCD34#27).extractLsb' 24 2 = (0x1000034#27).extractLsb' 24 2 ∧
      (0x1ABCD34#27).getLsbD 25 = false ∧ (0x1ABCD34#27).extractLsb' 0 8 = (0x1000034#27).extractLsb' 0 8) ∧
    ((0x7FFFFFF#27).getLsbD 26 = true ∧ (0x4000000#27).getLsbD 26 = true) := by decide
theorem witness_EveryWordDecodesAndRuns : 27 ≤ 32 ∧ 0x7FFFFFF < 2 ^ 27 := by decide
/-- Each port in turn with a mask that is not 0, and ports all of whose masks are 0. -/
theorem witness_UncleanInputIsRefused :
    (at_ none [.edge uncleanPins]).pending = .edge uncleanPins :: [] ∧ uncleanPins.data.unclean ≠ 0#8 ∧
    ({ drivePins 0#27 with rst := ⟨0#1, 1#1⟩ } : Pins).rst.unclean ≠ 0#1 ∧
    ({ drivePins 0#27 with initLoad := ⟨0#1, 1#1⟩ } : Pins).initLoad.unclean ≠ 0#1 ∧
    ({ drivePins 0#27 with dataValid := ⟨0#1, 1#1⟩ } : Pins).dataValid.unclean ≠ 0#1 ∧
    ({ drivePins 0#27 with initValue := ⟨0#16, 0x8000#16⟩ } : Pins).initValue.unclean ≠ 0#16 ∧
    (at_ none [.edge (drivePins 0x7FFFFFF#27)]).pending = .edge (drivePins 0x7FFFFFF#27) :: [] ∧
    (drivePins 0x7FFFFFF#27).rst.unclean = 0#1 ∧ (drivePins 0x7FFFFFF#27).initLoad.unclean = 0#1 ∧
    (drivePins 0x7FFFFFF#27).dataValid.unclean = 0#1 ∧ (drivePins 0x7FFFFFF#27).initValue.unclean = 0#16 ∧
    (drivePins 0x7FFFFFF#27).data.unclean = 0#8 := by decide
theorem witness_BitStepIsSourceLoopBody :
    ((0x0001#16).getLsbD 0 ^^ false) = true ∧ ((0x0001#16).getLsbD 0 ^^ true) = false := by decide
theorem witness_BitStepCorners : (0x0001#16).getLsbD 0 ≠ false ∧ 15 < 16 ∧ 10 < 16 ∧ 3 < 16 ∧ 0 < 16 := by decide
/-- LOAD, an ignored-field NOP with `data` driven, two FEEDs; LOAD_FEED and FEED; RESET and two FEEDs. -/
theorem witness_ComputeTakesEightStepsPerByte :
    msg2 = 0x34#8 :: [0x1E#8] ∧
    ([0x2FFFFAB#27, 0x0FFFFFF#27, 0x1ABCD34#27, 0x100001E#27].map decode).filter (fun i => i.op != .NOP)
      = crcOps 0xFFFF#16 msg2 ∧
    ([0x3FFFF34#27, 0x100001E#27].map decode).filter (fun i => i.op != .NOP) = crcqOps 0xFFFF#16 0x34#8 [0x1E#8] ∧
    ([0x7ABCDEF#27, 0x1000034#27, 0x100001E#27].map decode).filter (fun i => i.op != .NOP)
      = .reset :: msg2.map .feed := by decide
theorem witness_NopHoldsState :
    (0x0FFFFFF#27).extractLsb' 24 3 = 0b000#3 ∧
    (at_ none (edges [0x0FFFFFF#27, 0#27] ++ [.read])).pending = edges [0x0FFFFFF#27, 0#27] ++ [.read] := by decide
theorem witness_LoadWritesInitialValue : (0x2FFFF00#27).extractLsb' 24 3 = 0b010#3 := by decide
theorem witness_FeedTakesOneByte :
    (0x1ABCDEF#27).extractLsb' 24 3 = 0b001#3 ∧ (at_ (some 0xFFFF#16)).crc = some 0xFFFF#16 ∧ (at_ none).crc = none := by
  decide
theorem witness_LoadFeedStartsAndFeeds : (0x3123456#27).extractLsb' 24 3 = 0b011#3 := by decide
theorem witness_ResetReturnsDefault : (0x4000000#27).getLsbD 26 = true := by decide
theorem witness_OperationFrame :
    nextOf (exec (.load 0x1234#16) (at_ none)) = some (at_ (some 0x1234#16)) ∧
    (at_ (some 0x1234#16)).crc ≠ (at_ none).crc ∧ nextOf (exec .nop (at_ none)) = some (at_ none) := by decide
theorem witness_StartForgetsOldMessage :
    (Instr.load 0#16).startsMessage = true ∧ (Instr.loadFeed 0#16 0#8).startsMessage = true ∧
    Instr.reset.startsMessage = true := by decide
theorem witness_CrcIsWrittenOnlyByTheseEvents :
    nextOf (step (at_ (some 0xFFFF#16) (edges [0x1000034#27]))) = some (at_ (some 0x7820#16)) ∧
    nextOf (step (at_ (some 0xFFFF#16) [.powerCycle])) = some (at_ none) := by decide
theorem witness_DefinedBitFollowsStarts : State.powerOn.defined = false := by decide
theorem witness_StepRunsDecodedInstruction :
    (at_ none (edges [0x3FFFF34#27])).pending = .edge (drivePins 0x3FFFF34#27) :: [] ∧
    samplePins (drivePins 0x3FFFF34#27) = some 0x3FFFF34#27 ∧ Instr.reset.wellFormed = true ∧
    0x7FFFFFF < 2 ^ 32 ∧ 0x7FFFFFF < 2 ^ 27 := by decide
theorem witness_StoppedClockHoldsAndPowerLossUndefines :
    State.reset.pending = [] ∧ (at_ (some 0#16) [.powerCycle]).pending = .powerCycle :: [] := by decide
theorem witness_ReadShowsRegister :
    (at_ (some 0xBFD2#16) [.read]).crc = some 0xBFD2#16 ∧ (at_ (some 0xBFD2#16) [.read]).pending = .read :: [] ∧
    (at_ (some 0xBFD2#16) [.expect 0#16]).pending = .expect 0#16 :: [] := by decide
theorem witness_ReadIsKeptByTheHost :
    (at_ (some 0xBFD2#16) [.read]).crc = some 0xBFD2#16 ∧ (at_ (some 0xBFD2#16) [.read]).pending = .read :: [] ∧
    (at_ (some 0xBFD2#16) [.expect 0#16]).pending = .expect 0#16 :: [] := by decide
/-- A state with the fault recorded, its host about to reset and read. -/
def faulted : State := { at_ none [issueOp .reset, .read] with fault := some .undefinedCrc }
theorem witness_UndefinedReadRecordsFault :
    (at_ none [.read]).defined = false ∧ (at_ none [.read]).pending = .read :: [] ∧
    (at_ none [.expect 0#16]).pending = .expect 0#16 :: [] ∧
    faulted.fault = some .undefinedCrc ∧ HostAction.powerCycle ∉ faulted.pending ∧
    (nextOf (run 2 faulted)).isSome = true := by decide
/-- A read, an assertion that holds, one that does not, and one on a register without a value. -/
theorem witness_ValidEndsAndMetExpectations :
    (at_ (some 0xBFD2#16) [.read]).crc = some 0xBFD2#16 ∧ (at_ (some 0xBFD2#16) [.read]).pending = .read :: [] ∧
    (at_ (some 0xBFD2#16) [.expect 0xBFD2#16]).pending = .expect 0xBFD2#16 :: [] ∧
    (at_ (some 0xBFD2#16) [.expect 0xD2BF#16]).pending = .expect 0xD2BF#16 :: [] ∧
    (at_ (some 0xBFD2#16)).fault = none ∧
    (at_ none [.expect 0#16]).crc = none ∧ (at_ none [.expect 0#16]).pending = .expect 0#16 :: [] := by decide
theorem witness_EdgesTakeEffectInOrder :
    (at_ none (edges [0x2123400#27, 0x1000034#27] ++ [.read])).pending =
      edges [0x2123400#27, 0x1000034#27] ++ [.read] := by decide
theorem witness_SameRegisterSameWordsSameResult :
    (at_ (some 1#16) (edges [0x1000034#27] ++ [.read])).crc = (at_ (some 1#16) (edges [0x1000034#27] ++ [])).crc ∧
    (at_ (some 1#16) (edges [0x1000034#27] ++ [.read])).pending = edges [0x1000034#27] ++ [.read] ∧
    (at_ (some 1#16) (edges [0x1000034#27] ++ [])).pending = edges [0x1000034#27] ++ [] := by decide
theorem witness_ResetStateAndDefaultMessage :
    (at_ none (issueOp .reset :: msg2.map (fun d => issueOp (.feed d)) ++ [.read])).pending =
      issueOp .reset :: msg2.map (fun d => issueOp (.feed d)) ++ [.read] := by decide
theorem witness_HoldingResetKeepsResetState :
    ((0x7FFFFFF#27).getLsbD 26 = true ∧ (0x4000000#27).getLsbD 26 = true) ∧
    (at_ none (edges [0x7FFFFFF#27, 0x4000000#27] ++ [.read])).pending =
      edges [0x7FFFFFF#27, 0x4000000#27] ++ [.read] ∧
    nextOf (step (at_ (some 7#16) [.read])) = some { at_ (some 7#16) with observed := [⟨7#16, none⟩] } := by decide
theorem witness_InstancesShareNothing :
    [at_ none (edges [0x4000000#27]), at_ none (edges [0x2123400#27])][0]? = some (at_ none (edges [0x4000000#27])) ∧
    nextOf (step (at_ none (edges [0x4000000#27]))) = some (at_ (some 0xFFFF#16)) ∧
    nextOf (step (at_ none (edges [0x2123400#27]))) = some (at_ (some 0x1234#16)) ∧ (0 : Nat) ≠ 1 ∧
    1 < [at_ none (edges [0x4000000#27]), at_ none (edges [0x2123400#27])].length := by decide
/-- LOAD, an ignored-field NOP, two FEEDs; then LOAD_FEED and FEED; then RESET and two FEEDs. -/
theorem witness_TransactionComputes :
    (([0x2FFFFAB#27, 0x0FFFFFF#27, 0x1ABCD34#27, 0x100001E#27].map decode).filter (fun i => i.op != .NOP)
      = crcOps 0xFFFF#16 msg2) ∧
    (msg2 = 0x34#8 :: [0x1E#8] ∧ ([0x3FFFF34#27, 0x100001E#27].map decode).filter (fun i => i.op != .NOP)
      = crcqOps 0xFFFF#16 0x34#8 [0x1E#8]) ∧
    (([0x7ABCDEF#27, 0x1000034#27, 0x100001E#27].map decode).filter (fun i => i.op != .NOP)
      = .reset :: msg2.map .feed) ∧
    (at_ none (edges [0x3FFFF34#27, 0x100001E#27] ++ .read :: [])).pending =
      edges [0x3FFFF34#27, 0x100001E#27] ++ .read :: [] := by decide
theorem witness_PseudoOperationsCompute :
    State.powerOn.pending = [] ∧ 0xFFFF < 0x10000 ∧ ∀ x ∈ [0xFF, 0x00], x < 0x100 := by decide
theorem witness_HostDutiesAreAnInvariant :
    hostKeepsDuties (at_ none [issueOp (.feed 0x34#8), issueOp .reset, .read, .powerCycle, issueOp (.load 1#16), .expect 1#16])
      = true := by decide
theorem witness_DutifulRunNeverFaults : readsDefined false [issueOp (.loadFeed 0#16 1#8), .read] = true := by decide
theorem witness_OmittedStartConcatenates :
    (at_ (some (compute [0x34#8] 0xFFFF#16)) ([0x1E#8].map (fun d => issueOp (.feed d)) ++ [.read])).pending =
      [0x1E#8].map (fun d => issueOp (.feed d)) ++ [.read] ∧
    (at_ (some (compute [0x34#8] 0xFFFF#16))).crc = some (compute [0x34#8] 0xFFFF#16) ∧ State.powerOn.crc = none := by
  decide
theorem witness_StrippingRemovesOnlyThese :
    (' '.toNat = 0x20 ∧ '\t'.toNat = 0x09 ∧ '\n'.toNat = 0x0A) ∧
    ('1'.toNat ≠ 0x20 ∧ '1'.toNat ≠ 0x09 ∧ '1'.toNat ≠ 0x0A) ∧
    ('\r'.toNat ≠ 0x20 ∧ '\r'.toNat ≠ 0x09 ∧ '\r'.toNat ≠ 0x0A ∧ isHexChar '\r' = false) := by decide
theorem witness_OddLengthIsTheLengthError : (strip ['1', 'G', ' ', '2']).length % 2 = 1 := by decide
theorem witness_NonHexCharacterIsTheCharacterError :
    (strip ['1', ' ', 'G']).length % 2 = 0 ∧ 'G' ∈ strip ['1', ' ', 'G'] ∧ isHexChar 'G' = false := by decide
theorem witness_DecodedBytesAreThePairs :
    (strip ['3', ' ', '4']).length % 2 = 0 ∧ (strip ['3', ' ', '4']).all isHexChar = true := by decide
theorem witness_BlankTextIsTheEmptyMessage : strip ['\t', '\n', ' '] = [] := by decide
theorem witness_RefusedTextIssuesNothing :
    hexDecode ['3'] = .error .invalidLengthError ∧ hexDecode ['3', '4'] = .ok [0x34#8] := by decide
theorem witness_PseudoOperationsExpand :
    0xFFFF < 0x10000 ∧ (∀ x ∈ [0xFF, 0x00], x < 0x100) ∧ [0xFF, 0x00] = 0xFF :: [0x00] ∧
    hexDecode ['3', '4'] = .ok [0x34#8] ∧ hexDecode ['3', 'G'] = .error .invalidCharacterError := by decide
/-- Both sides of each boundary, and a line of each other kind. -/
theorem witness_OnlyTheseLinesAreRefused :
    (Line.feed 0x100).inRange = false ∧ (Line.feed 0xFF).wellFormed = true ∧
    expandLine (.load 0x10000) = .error .outOfRange ∧ expandLine (.load 0xFFFF) = .ok [issueOp (.load 0xFFFF#16)] ∧
    expandLine (.crcq 0xFFFF []) = .error .noByte ∧
    expandLine (.msg 0 ['3']) = .error (.hostError .invalidLengthError) ∧ Line.wait 0 = .wait 0 := by
  refine ⟨by decide, by decide, by rfl, by rfl, by rfl, by rfl, by rfl⟩
theorem witness_SingleLinesExpand : 0xFFFF < 0x10000 ∧ 0xFF < 0x100 := by decide

end Sys2Proof.Tests
end

/-! The state family (10_state.md): RESET and power-on, the bit `defined`, the read of `crc_out`, and instances
side by side. First the lemmas about runs over issued operations and about one instance's step, then the
obligations. -/

namespace Sys2Proof.Proofs

open Sys2Proof.Machine Sys2Proof.Safety

/-! ## Issued operations -/

/-- The encoder's word decodes to the operation it was made from, whatever the operands. -/
@[simp] theorem decode_encode (i : Instr) : decode (encode i) = i := by
  cases i with
  | nop => exact (decode_joined _ _ _).trans (by decide)
  | feed d => exact (decode_joined 0b001#3 _ d).trans (by simp)
  | load v => exact (decode_joined 0b010#3 v _).trans (by simp)
  | loadFeed v d => exact (decode_joined 0b011#3 v d).trans (by simp)
  | reset => exact (decode_joined _ _ _).trans (by decide)

/-- Issuing operations is driving the ports with their words, edge by edge (R68). -/
theorem map_issueOp_eq_edges (is : List Instr) : is.map issueOp = edges (is.map encode) := by
  simp [edges, issueOp]

/-- A run over issued operations performs them in order, and takes nothing but them from the host. -/
theorem run_issued {is : List Instr} {s : State} {later : List HostAction}
    (h : s.pending = is.map issueOp ++ later) :
    run is.length s = .next { s with crc := crcAfterAll is s.crc, pending := later } := by
  rw [map_issueOp_eq_edges] at h
  simpa [Function.comp_def] using run_edges h

/-- FEEDs on a register that holds a value run the source's function on from that value (R89). -/
theorem crcAfterAll_feeds (data : List Byte) (r : Word) :
    crcAfterAll (data.map .feed) (some r) = some (compute data r) := by
  induction data generalizing r with
  | nil => rfl
  | cons d data ih =>
    rw [List.map_cons, crcAfterAll_cons, crcAfter_feed_some, ih, compute_cons]

/-! ## The bit `defined` -/

/-- The operations that start a message, by name (R32, R162). -/
theorem startsMessage_iff (i : Instr) :
    i.startsMessage = true ↔ i = .reset ∨ (∃ v, i = .load v) ∨ (∃ v d, i = .loadFeed v d) := by
  cases i <;> simp [Instr.startsMessage]

/-! ## One instance among several -/

/-- An instance whose own step answers `t` is replaced by `t`, in its place. -/
theorem stepInstance_of_next {k : Nat} {system : List State} {s t : State} (hk : system[k]? = some s)
    (hs : step s = .next t) : stepInstance k system = .next (system.set k t) := by
  simp [stepInstance, hk, hs]

/-- Everything a step of an existing instance can do when it answers a next system. -/
theorem stepInstance_cases {k : Nat} {system system' : List State} (hk : k < system.length)
    (h : stepInstance k system = .next system') :
    ∃ s t, system[k]? = some s ∧ step s = .next t ∧ system' = system.set k t := by
  have hget : system[k]? = some system[k] := List.getElem?_eq_getElem hk
  cases hs : step system[k] with
  | next t =>
    rw [stepInstance_of_next hget hs] at h
    exact ⟨_, t, hget, hs, (Host.Outcome.next.inj h).symm⟩
  | fault f => simp [stepInstance, hk, hs] at h
  | refused r => simp [stepInstance, hk, hs] at h

/-! ## The obligations -/

/-- Settles O39: the constants by evaluation, RESET by `exec_eq_next`, and the default message as a run over the
issued operations RESET, FEED, ..., FEED. -/
theorem resetStateAndDefaultMessage : Obligations.ResetStateAndDefaultMessage := by
  refine ⟨rfl, rfl, rfl, rfl, rfl, rfl, fun s => ⟨_, exec_eq_next .reset s, rfl, rfl, rfl⟩, ?_⟩
  intro data s rest h
  have hissued : s.pending = (.reset :: data.map .feed : List Instr).map issueOp ++ rest := by
    simpa [Function.comp_def] using h
  have hrun := run_issued hissued
  rw [crcAfterAll_cons, crcAfter_reset, crcAfterAll_feeds, List.length_cons, List.length_map] at hrun
  exact hrun

/-- Settles O41: a step of an instance sets its own place in the list, and sets at two different places
commute. -/
theorem instancesShareNothing : Obligations.InstancesShareNothing := by
  constructor
  · intro k system s t hk hs
    have hlt : k < system.length := (List.getElem?_eq_some_iff.mp hk).1
    exact ⟨_, stepInstance_of_next hk hs, List.getElem?_set_self hlt,
      fun j hj => List.getElem?_set_ne hj.symm⟩
  · intro j k a b c hjk hj hk hb hc
    obtain ⟨s, t, hs, hst, rfl⟩ := stepInstance_cases hj hb
    obtain ⟨u, v, hu, huv, rfl⟩ := stepInstance_cases (by simpa using hk) hc
    have huOld : a[k]? = some u := by rwa [List.getElem?_set_ne hjk] at hu
    have hsNew : (a.set k v)[j]? = some s := by rwa [List.getElem?_set_ne hjk.symm]
    refine ⟨_, stepInstance_of_next huOld huv, ?_⟩
    rw [stepInstance_of_next hsNew hst, List.set_comm _ _ hjk]

/-- Settles O30: every operation leaves the register with a value exactly if it held one or the operation starts
a message. -/
theorem definedBitFollowsStarts : Obligations.DefinedBitFollowsStarts := by
  refine ⟨rfl, fun i s => ⟨_, exec_eq_next i s, ?_⟩, fun s h => ?_⟩
  · rw [← startsMessage_iff]
    simp [State.defined, crcAfter_isSome]
  · have hcrc : s.crc = none := (State.not_defined_iff_crc_none s).mp h
    refine ⟨hcrc, fun d => ?_, sampleCrcOut_of_none hcrc⟩
    rw [exec_eq_next, hcrc, crcAfter_feed_none, ← hcrc]

/-- Settles O33: READ and EXPECT are the same step, which adds to what the host has read and leaves the block. -/
theorem readShowsRegister : Obligations.ReadShowsRegister := by
  intro s v hcrc
  refine ⟨⟨v, sampleCrcOut_of_some hcrc, fun _ _ => rfl⟩, ?_⟩
  intro a rest ha hp
  obtain ⟨e, rfl⟩ : ∃ e, a = readAction e := by
    rcases ha with rfl | ⟨x, rfl⟩
    · exact ⟨none, rfl⟩
    · exact ⟨some x, rfl⟩
  exact ⟨_, step_read_of_some hp hcrc, rfl, rfl, rfl, rfl⟩

end Sys2Proof.Proofs

/-! The memory family (20_memory.md): the order in which operations take effect. -/

namespace Sys2Proof.Proofs

open Sys2Proof.Machine Sys2Proof.Safety

/-- Settles O37: a run over edges (`run_edges`) and the operations one after the other (`execAll_eq_next`) leave
the same register, a function of the sampled words alone, and the actions that follow stay pending. -/
theorem edgesTakeEffectInOrder : Obligations.EdgesTakeEffectInOrder := by
  intro ws s later h
  have hrun := run_edges h
  have hall := execAll_eq_next (ws.map decode) { s with pending := later }
  exact ⟨hrun.trans hall.symm, _, hrun, rfl⟩

end Sys2Proof.Proofs

/-! The encoding family (30_encoding.md): the decode priority, the opcode map, the fields an operation ignores,
totality, and the expansions of the pseudo-operations. First the lemmas about the decoder, the opcode map and the
textual form, then the obligations. -/

namespace Sys2Proof.Proofs

open Sys2Proof.Machine Sys2Proof.Safety

/-! ## The decoder, one equation per operation (R62) -/

/-- `rst` alone selects RESET. -/
theorem decode_of_rst {w : OpWord} (hr : w.getLsbD 26 = true) : decode w = .reset := by
  simp [decode, OpWord.rst, hr]

/-- Without `rst`, the two control bits select the operation. -/
theorem decode_of_not_rst {w : OpWord} (hr : w.getLsbD 26 = false) :
    decode w =
      if w.extractLsb' 24 2 = 0b11#2 then .loadFeed (w.extractLsb' 8 16) (w.extractLsb' 0 8)
      else if w.extractLsb' 24 2 = 0b10#2 then .load (w.extractLsb' 8 16)
      else if w.extractLsb' 24 2 = 0b01#2 then .feed (w.extractLsb' 0 8)
      else .nop := by
  simp only [decode, OpWord.rst, hr]
  rfl

theorem decode_of_controls_loadFeed {w : OpWord} (hr : w.getLsbD 26 = false) (hc : w.extractLsb' 24 2 = 0b11#2) :
    decode w = .loadFeed (w.extractLsb' 8 16) (w.extractLsb' 0 8) := by
  simp [decode_of_not_rst hr, hc]

theorem decode_of_controls_load {w : OpWord} (hr : w.getLsbD 26 = false) (hc : w.extractLsb' 24 2 = 0b10#2) :
    decode w = .load (w.extractLsb' 8 16) := by
  simp [decode_of_not_rst hr, hc]

theorem decode_of_controls_feed {w : OpWord} (hr : w.getLsbD 26 = false) (hc : w.extractLsb' 24 2 = 0b01#2) :
    decode w = .feed (w.extractLsb' 0 8) := by
  simp [decode_of_not_rst hr, hc]

theorem decode_of_controls_nop {w : OpWord} (hr : w.getLsbD 26 = false) (hc : w.extractLsb' 24 2 = 0b00#2) :
    decode w = .nop := by
  simp [decode_of_not_rst hr, hc]

/-- NOP is selected by the three control bits together, all 0. -/
theorem decode_of_top_bits_zero {w : OpWord} (h : w.extractLsb' 24 3 = 0b000#3) : decode w = .nop := by
  obtain ⟨c, v, d, rfl⟩ := exists_joined w
  rw [joined_controls] at h
  subst h
  exact (decode_joined _ v d).trans (by simp)

/-- Everything a word can be: the bits that select the operation, with the operation they select. -/
theorem decode_cases (w : OpWord) :
    (w.getLsbD 26 = true ∧ decode w = .reset) ∨
    (w.getLsbD 26 = false ∧ w.extractLsb' 24 2 = 0b11#2 ∧
      decode w = .loadFeed (w.extractLsb' 8 16) (w.extractLsb' 0 8)) ∨
    (w.getLsbD 26 = false ∧ w.extractLsb' 24 2 = 0b10#2 ∧ decode w = .load (w.extractLsb' 8 16)) ∨
    (w.getLsbD 26 = false ∧ w.extractLsb' 24 2 = 0b01#2 ∧ decode w = .feed (w.extractLsb' 0 8)) ∨
    (w.getLsbD 26 = false ∧ w.extractLsb' 24 2 = 0b00#2 ∧ decode w = .nop) := by
  have hcontrols : ∀ c : BitVec 2, c = 0b11#2 ∨ c = 0b10#2 ∨ c = 0b01#2 ∨ c = 0b00#2 := by decide
  cases hr : w.getLsbD 26 with
  | true => exact .inl ⟨rfl, decode_of_rst hr⟩
  | false =>
    right
    rcases hcontrols (w.extractLsb' 24 2) with hc | hc | hc | hc
    · exact .inl ⟨rfl, hc, decode_of_controls_loadFeed hr hc⟩
    · exact .inr (.inl ⟨rfl, hc, decode_of_controls_load hr hc⟩)
    · exact .inr (.inr (.inl ⟨rfl, hc, decode_of_controls_feed hr hc⟩))
    · exact .inr (.inr (.inr ⟨rfl, hc, decode_of_controls_nop hr hc⟩))

/-- `init_load`, IW[25], is the upper of the two control bits. -/
theorem getLsbD_initLoad (w : OpWord) : w.getLsbD 25 = (w.extractLsb' 24 2).getLsbD 1 := by simp

/-- `data_valid`, IW[24], is the lower of the two control bits. -/
theorem getLsbD_dataValid (w : OpWord) : w.getLsbD 24 = (w.extractLsb' 24 2).getLsbD 0 := by simp

theorem wellFormed_eq_true (i : Instr) : i.wellFormed = true := by
  cases i <;> rfl

/-- A number that fits an operation word decodes, whatever the width of the table's numbers above 26 (R65). -/
theorem decodeTableWord_of_lt {nbits w : Nat} (hbits : 27 ≤ nbits) (hw : w < 2 ^ 27) :
    decodeTableWord nbits w = some (decode (BitVec.ofNat 27 w)) := by
  have hmod : w % 2 ^ nbits = w :=
    Nat.mod_eq_of_lt (hw.trans_le (Nat.pow_le_pow_right (by decide) hbits))
  simp only [decodeTableWord, decodeNat, hmod, if_pos hw]

/-! ## The opcode map reads the three control bits only (R67) -/

/-- No row of the map looks at `init_value` or `data`: its mask lies within IW[26:24]. -/
theorem mask_within_controls : ∀ r ∈ opcodeMap, (0b111#3 ++ 0#16 ++ 0#8 : OpWord) &&& r.mask = r.mask := by
  decide

/-- Whether a row selects a word is decided by the word's three control bits. -/
theorem selects_joined {r : OpcodeRow} (hr : r ∈ opcodeMap) (c : BitVec 3) (v : Word) (d : Byte) :
    r.selects (c ++ v ++ d : OpWord) = r.selects (c ++ 0#16 ++ 0#8 : OpWord) := by
  have hmasked : (c ++ v ++ d : OpWord) &&& r.mask = (c ++ 0#16 ++ 0#8 : OpWord) &&& r.mask :=
    calc (c ++ v ++ d : OpWord) &&& r.mask
      _ = ((c ++ v ++ d) &&& (0b111#3 ++ 0#16 ++ 0#8)) &&& r.mask := by
          rw [BitVec.and_assoc, mask_within_controls r hr]
      _ = (c ++ 0#16 ++ 0#8) &&& r.mask := by
          rw [Laws.RowMatch.joined_and, BitVec.and_zero, BitVec.and_zero,
            show c &&& 0b111#3 = c from BitVec.and_allOnes]
  simp only [OpcodeRow.selects, hmasked]

/-- Which operation a word decodes to, its operands left aside, is decided by its three control bits. -/
theorem op_decode_joined (c : BitVec 3) (v : Word) (d : Byte) :
    (decode (c ++ v ++ d : OpWord)).op = (decode (c ++ 0#16 ++ 0#8 : OpWord)).op := by
  rw [decode_joined, decode_joined]
  split_ifs <;> rfl

/-- The one row that selects a word is the row of the operation that the word decodes to. -/
theorem filter_selects_eq_decoded (w : OpWord) :
    (opcodeMap.filter (fun r => r.selects w)).map (·.op) = [(decode w).op] := by
  have hcontrols : ∀ c : BitVec 3, (opcodeMap.filter (fun r => r.selects (c ++ 0#16 ++ 0#8 : OpWord))).map (·.op) =
      [(decode (c ++ 0#16 ++ 0#8 : OpWord)).op] := by decide
  obtain ⟨c, v, d, rfl⟩ := exists_joined w
  rw [List.filter_congr fun r hr => selects_joined hr c v d, op_decode_joined, hcontrols]

/-! ## The lines of the textual form that stand for several operations (R69) -/

theorem map_issueOp_crcOps (init : Word) (data : List Byte) :
    (crcOps init data).map issueOp = issueOp (.load init) :: data.map (fun b => issueOp (.feed b)) := by
  simp [crcOps, Function.comp_def]

theorem map_issueOp_crcqOps (init : Word) (first : Byte) (later : List Byte) :
    (crcqOps init first later).map issueOp =
      issueOp (.loadFeed init first) :: later.map (fun b => issueOp (.feed b)) := by
  simp [crcqOps, Function.comp_def]

theorem inRange_crc_iff (init : Nat) (bytes : List Nat) :
    (Line.crc init bytes).inRange = true ↔ init < 0x10000 ∧ ∀ x ∈ bytes, x < 0x100 := by
  simp [Line.inRange, isInit16, isByte]

theorem inRange_crcq_iff (init : Nat) (bytes : List Nat) :
    (Line.crcq init bytes).inRange = true ↔ init < 0x10000 ∧ ∀ x ∈ bytes, x < 0x100 :=
  inRange_crc_iff init bytes

theorem inRange_msg_iff (init : Nat) (text : List Char) :
    (Line.msg init text).inRange = true ↔ init < 0x10000 := by
  simp [Line.inRange, isInit16]

theorem expandLine_crc {init : Nat} {bytes : List Nat} (h : (Line.crc init bytes).inRange = true) :
    expandLine (.crc init bytes) = .ok ((crcOps (toWord init) (bytes.map toByte)).map issueOp) := by
  simp [expandLine, h]

theorem expandLine_crcq_cons {init b : Nat} {bs : List Nat} (h : (Line.crcq init (b :: bs)).inRange = true) :
    expandLine (.crcq init (b :: bs)) =
      .ok ((crcqOps (toWord init) (toByte b) (bs.map toByte)).map issueOp) := by
  simp [expandLine, h]

theorem expandLine_msg_of_ok {init : Nat} {text : List Char} {data : List Byte}
    (h : (Line.msg init text).inRange = true) (hd : hexDecode text = .ok data) :
    expandLine (.msg init text) = .ok ((crcOps (toWord init) data).map issueOp) := by
  simp [expandLine, h, hd]

theorem expandLine_msg_of_error {init : Nat} {text : List Char} {e : HostError}
    (h : (Line.msg init text).inRange = true) (he : hexDecode text = .error e) :
    expandLine (.msg init text) = .error (.hostError e) := by
  simp [expandLine, h, he]

theorem expandLine_wait (count : Nat) : expandLine (.wait count) = .ok (List.replicate count (issueOp .nop)) := rfl

/-- A refused line issues nothing (R69, R127). -/
theorem issueLine_of_error {l : Line} {e : LineError} (h : expandLine l = .error e) (s : State) :
    s.issueLine l = s := by
  simp [State.issueLine, h]

/-! ## The obligations -/

/-- Settles O4: selecting a row and naming the decoded operation both read the three control bits alone, and they
agree on the eight values of these; the operands are those of `decode_cases`. -/
theorem exactlyOneOpcodeRowSelects : Obligations.ExactlyOneOpcodeRowSelects := by
  refine ⟨rfl, fun w => ⟨filter_selects_eq_decoded w, ?_⟩⟩
  rcases decode_cases w with ⟨-, h⟩ | ⟨-, -, h⟩ | ⟨-, -, h⟩ | ⟨-, -, h⟩ | ⟨-, -, h⟩ <;> simp [h]

/-- Settles O5: the bits that select the first word's operation are the second word's too, and the operand fields
agree wherever the selected operation has them. -/
theorem ignoredFieldsHaveNoEffect : Obligations.IgnoredFieldsHaveNoEffect := by
  intro w w' s hrst hcontrols hinit hdata
  have hsame : decode w = decode w' := by
    rcases decode_cases w with ⟨hr, hw⟩ | ⟨hr, hc, hw⟩ | ⟨hr, hc, hw⟩ | ⟨hr, hc, hw⟩ | ⟨hr, hc, hw⟩
    · rw [hw, decode_of_rst (hrst ▸ hr)]
    · rw [hw, decode_of_controls_loadFeed (hrst ▸ hr) (hcontrols hr ▸ hc),
        hinit hr (by rw [getLsbD_initLoad, hc]; decide), hdata hr (by rw [getLsbD_dataValid, hc]; decide)]
    · rw [hw, decode_of_controls_load (hrst ▸ hr) (hcontrols hr ▸ hc),
        hinit hr (by rw [getLsbD_initLoad, hc]; decide)]
    · rw [hw, decode_of_controls_feed (hrst ▸ hr) (hcontrols hr ▸ hc),
        hdata hr (by rw [getLsbD_dataValid, hc]; decide)]
    · rw [hw, decode_of_controls_nop (hrst ▸ hr) (hcontrols hr ▸ hc)]
  exact ⟨hsame, by rw [hsame]⟩

/-- Settles O3: the decoder's equations, one per operation. -/
theorem decodePriority : Obligations.DecodePriority := fun _ =>
  ⟨decode_of_rst, decode_of_controls_loadFeed, decode_of_controls_load, decode_of_controls_feed,
    decode_of_top_bits_zero⟩

/-- Settles O6: the table's numbers are cut to themselves, and `exec_eq_next` says that an operation writes the
register at most. -/
theorem everyWordDecodesAndRuns : Obligations.EveryWordDecodesAndRuns :=
  ⟨fun _ _ hbits hw => ⟨decodeTableWord_of_lt hbits hw, wellFormed_eq_true _⟩,
    fun i s => ⟨_, exec_eq_next i s, rfl⟩⟩

/-- Settles O56: each line is in range, so it expands by its own equation into operations issued in order. -/
theorem pseudoOperationsExpand : Obligations.PseudoOperationsExpand := by
  intro init bytes hinit hbytes
  have hmsg : ∀ text, (Line.msg init text).inRange = true := fun text => (inRange_msg_iff init text).mpr hinit
  refine ⟨?crc, ?crcq, ?msg, ?refused, expandLine_wait⟩
  case crc =>
    rw [expandLine_crc ((inRange_crc_iff init bytes).mpr ⟨hinit, hbytes⟩), map_issueOp_crcOps, List.map_map]
    rfl
  case crcq =>
    rintro b bs rfl
    rw [expandLine_crcq_cons ((inRange_crcq_iff init (b :: bs)).mpr ⟨hinit, hbytes⟩), map_issueOp_crcqOps,
      List.map_map]
    rfl
  case msg =>
    intro text data hd
    rw [expandLine_msg_of_ok (hmsg text) hd, map_issueOp_crcOps]
  case refused =>
    intro text e he
    have herr := expandLine_msg_of_error (hmsg text) he
    exact ⟨herr, issueLine_of_error herr⟩

end Sys2Proof.Proofs

/-! The family of the CRC operations (40_crc_operations.md): the bit step and the byte step, `compute` over a
message, the five operations, and the independence of a run from everything but the register and the words. First
the lemmas, then the obligations. -/

namespace Sys2Proof.Proofs

open Sys2Proof.Machine Sys2Proof.Safety

/-! ## The bit steps of a byte (R81) -/

/-- The first `k` bit steps are a fold over the first `k` bits, bit 0 first. -/
theorem bitSteps_eq_foldl (k : Nat) (r : Word) (d : Byte) :
    bitSteps k r d = (List.range k).foldl (fun x j => step1 x (d.getLsbD j)) r := by
  induction k with
  | zero => rfl
  | succ k ih => rw [bitSteps_succ, ih, List.range_succ, List.foldl_append, List.foldl_cons, List.foldl_nil]

/-- `bitSteps` peels its last step; peeled at the first instead, the rest runs over the byte shifted right. -/
theorem bitSteps_succ_eq_shifted (k : Nat) (r : Word) (d : Byte) :
    bitSteps (k + 1) r d = bitSteps k (step1 r (d.getLsbD 0)) (d >>> 1) := by
  induction k with
  | zero => rfl
  | succ k ih => rw [bitSteps_succ, ih, bitSteps_succ, BitVec.getLsbD_ushiftRight, Nat.add_comm 1 k]

/-- The source's loop, which shifts the byte, performs the bit steps, which index it. -/
theorem shiftingSteps_eq_bitSteps (k : Nat) (r : Word) (d : Byte) : shiftingSteps k r d = bitSteps k r d := by
  induction k generalizing r d with
  | zero => rfl
  | succ k ih => rw [shiftingSteps, ih, bitSteps_succ_eq_shifted]

/-! ## The bits of a message (R41, R42) -/

theorem messageBits_cons (d : Byte) (data : List Byte) :
    messageBits (d :: data) = (List.range 8).map (fun k => d.getLsbD k) ++ messageBits data := rfl

theorem length_messageBits (data : List Byte) : (messageBits data).length = data.length * 8 := by
  induction data with
  | nil => rfl
  | cons d data ih =>
    rw [messageBits_cons, List.length_append, ih, List.length_map, List.length_range, List.length_cons]
    omega

/-- `compute` is the bit step over the message's bits in order. -/
theorem compute_eq_foldl_step1 (data : List Byte) (initial : Word) :
    compute data initial = (messageBits data).foldl step1 initial := by
  induction data generalizing initial with
  | nil => rfl
  | cons d data ih =>
    have hbyte : step8 initial d = ((List.range 8).map (fun k => d.getLsbD k)).foldl step1 initial := by
      rw [List.foldl_map]
      exact bitSteps_eq_foldl 8 initial d
    rw [compute_cons, ih, messageBits_cons, List.foldl_append, hbyte]

/-! ## Operations and edges that consume a byte (R91) -/

/-- The operation takes a byte from `data`: FEED and LOAD_FEED. -/
def consumesByte : Instr → Bool
  | .nop => false
  | .feed _ => true
  | .load _ => false
  | .loadFeed _ _ => true
  | .reset => false

theorem consumesByte_feed (d : Byte) : consumesByte (.feed d) = true := rfl

/-- An edge consumes a byte, `rst` being 0 and `data_valid` 1, exactly if its word's operation does. -/
theorem edge_consumes_eq_decode (w : OpWord) : (!w.getLsbD 26 && w.getLsbD 24) = consumesByte (decode w) := by
  rw [getLsbD_dataValid]
  rcases decode_cases w with ⟨hr, hw⟩ | ⟨hr, hc, hw⟩ | ⟨hr, hc, hw⟩ | ⟨hr, hc, hw⟩ | ⟨hr, hc, hw⟩
  · rw [hr, hw]; rfl
  all_goals rw [hr, hc, hw]; rfl

/-- NOPs among the operations consume nothing. -/
theorem countP_consumesByte_filter_not_nop (is : List Instr) :
    (is.filter (fun i => i.op != .NOP)).countP consumesByte = is.countP consumesByte := by
  rw [List.countP_filter]
  congr 1
  funext i
  cases i <;> rfl

/-- The edges that consume a byte are counted on the operations that are no NOP. -/
theorem countP_edges_consuming (ws : List OpWord) :
    ws.countP (fun w => !w.getLsbD 26 && w.getLsbD 24) =
      ((ws.map decode).filter (fun i => i.op != .NOP)).countP consumesByte := by
  rw [countP_consumesByte_filter_not_nop, List.countP_map]
  congr 1
  funext w
  exact edge_consumes_eq_decode w

/-- FEEDs of a message: each counts under a test that every FEED passes. -/
theorem countP_feeds {p : Instr → Bool} (hp : ∀ d, p (.feed d) = true) (data : List Byte) :
    (data.map Instr.feed).countP p = data.length := by
  have hall : ∀ i ∈ data.map Instr.feed, p i = true := by simp [hp]
  rw [List.countP_eq_length.mpr hall, List.length_map]

/-- FEEDs of a message: none counts under a test that no FEED passes. -/
theorem countP_feeds_eq_zero {p : Instr → Bool} (hp : ∀ d, p (.feed d) = false) (data : List Byte) :
    (data.map Instr.feed).countP p = 0 := by
  rw [List.countP_eq_zero]
  simp [hp]

/-! ## The three bits that select an operation other than RESET (R62, R67) -/

/-- IW[26:24] are `rst` above the two control bits. -/
theorem rst_and_controls_of_top_bits {w : OpWord} {c : BitVec 3} (h : w.extractLsb' 24 3 = c) :
    w.getLsbD 26 = c.getLsbD 2 ∧ w.extractLsb' 24 2 = c.extractLsb' 0 2 := by
  subst h
  constructor
  · simp
  · apply BitVec.eq_of_getLsbD_eq
    intro i hi
    simp [hi, show i < 3 by omega]

theorem decode_of_top_bits_feed {w : OpWord} (h : w.extractLsb' 24 3 = 0b001#3) :
    decode w = .feed (w.extractLsb' 0 8) := by
  obtain ⟨hr, hc⟩ := rst_and_controls_of_top_bits h
  exact decode_of_controls_feed hr hc

theorem decode_of_top_bits_load {w : OpWord} (h : w.extractLsb' 24 3 = 0b010#3) :
    decode w = .load (w.extractLsb' 8 16) := by
  obtain ⟨hr, hc⟩ := rst_and_controls_of_top_bits h
  exact decode_of_controls_load hr hc

theorem decode_of_top_bits_loadFeed {w : OpWord} (h : w.extractLsb' 24 3 = 0b011#3) :
    decode w = .loadFeed (w.extractLsb' 8 16) (w.extractLsb' 0 8) := by
  obtain ⟨hr, hc⟩ := rst_and_controls_of_top_bits h
  exact decode_of_controls_loadFeed hr hc

/-! ## What the register decides -/

/-- NOPs, however many, leave in the register what it held (R84). -/
theorem crcAfterAll_of_all_nop {is : List Instr} (h : ∀ i ∈ is, i = .nop) (c : Option Word) :
    crcAfterAll is c = c := by
  induction is with
  | nil => rfl
  | cons i is ih =>
    obtain ⟨rfl, hrest⟩ := List.forall_mem_cons.mp h
    rw [crcAfterAll_cons, crcAfter_nop, ih hrest]

theorem sampleCrcOut_congr {s t : State} (h : s.crc = t.crc) : sampleCrcOut s = sampleCrcOut t := by
  unfold sampleCrcOut
  rw [h]

/-! ## The obligations -/

/-- Settles O15: the bit steps by `compute_eq_foldl_step1`; the edges are counted on their operations, where a NOP
counts for nothing, and each way to start leaves one consuming operation per byte. -/
theorem computeTakesEightStepsPerByte : Obligations.ComputeTakesEightStepsPerByte := by
  intro data initial
  refine ⟨compute_eq_foldl_step1 data initial, length_messageBits data, ?feeds, ?loadFeeds, ?quick, ?edges⟩
  case feeds =>
    rw [crcOps, List.countP_cons_of_neg Bool.false_ne_true, countP_feeds (fun _ => rfl)]
  case loadFeeds =>
    rw [crcOps, List.countP_cons_of_neg Bool.false_ne_true, countP_feeds_eq_zero (fun _ => rfl)]
  case quick =>
    rintro first later rfl
    constructor
    · rw [crcqOps, List.countP_cons_of_pos rfl, countP_feeds_eq_zero (fun _ => rfl)]
    · rw [crcqOps, List.countP_cons_of_neg Bool.false_ne_true, countP_feeds (fun _ => rfl), List.length_cons,
        Nat.add_sub_cancel]
  case edges =>
    intro ws hstart
    rw [countP_edges_consuming]
    rcases hstart with h | ⟨first, later, rfl, h⟩ | h
    · rw [h, crcOps, List.countP_cons_of_neg Bool.false_ne_true, countP_feeds consumesByte_feed]
    · rw [h, crcqOps, List.countP_cons_of_pos rfl, countP_feeds consumesByte_feed, List.length_cons]
    · rw [h, List.countP_cons_of_neg Bool.false_ne_true, countP_feeds consumesByte_feed]

/-- Settles O21: the edges' words all decode to NOP, so `run_edges` leaves the register as it was. -/
theorem nopHoldsState : Obligations.NopHoldsState := by
  refine ⟨exec_eq_next .nop, fun _ => decode_of_top_bits_zero, fun ws s rest hws hp => ?_⟩
  have hnop : ∀ i ∈ ws.map decode, i = .nop := by
    intro i hi
    obtain ⟨w, hw, rfl⟩ := List.mem_map.mp hi
    exact decode_of_top_bits_zero (hws w hw)
  rw [run_edges hp, crcAfterAll_of_all_nop hnop]

/-- Settles O38: the two runs end by `run_edges` with one and the same function of the register and the words. -/
theorem sameRegisterSameWordsSameResult : Obligations.SameRegisterSameWordsSameResult := by
  intro ws s s' later later' hcrc hp hp'
  have hsame : crcAfterAll (ws.map decode) s.crc = crcAfterAll (ws.map decode) s'.crc := by rw [hcrc]
  exact ⟨_, _, run_edges hp, run_edges hp', hsame, congrArg Option.isSome hsame, sampleCrcOut_congr hsame⟩

/-- Settles O9: the two values of `mix` in `step1_eq_xor`. -/
theorem bitStepIsSourceLoopBody : Obligations.BitStepIsSourceLoopBody := by
  intro r b
  constructor
  · intro hmix
    rw [step1_eq_xor, hmix]
    rfl
  · intro hmix
    rw [step1_eq_xor, hmix]
    exact BitVec.xor_zero

/-- Settles O11: `step8` is `bitSteps 8`, which is the fold over the indexed bits and the shifting loop. -/
theorem byteStepIsSourceLoop : Obligations.ByteStepIsSourceLoop := fun r d =>
  ⟨bitSteps_eq_foldl 8 r d, (shiftingSteps_eq_bitSteps 8 r d).symm⟩

/-- Settles O16: without bytes the transaction is LOAD alone, whose value the read shows. -/
theorem emptyMessageKeepsInitial : Obligations.EmptyMessageKeepsInitial := fun initial s =>
  ⟨rfl, _, execAll_eq_next (crcOps initial []) s, sampleCrcOut_of_some rfl⟩

/-- Settles O22: by the decoder's equation and `exec_eq_next`. -/
theorem loadWritesInitialValue : Obligations.LoadWritesInitialValue :=
  ⟨fun _ => decode_of_top_bits_load, fun v s => ⟨exec_eq_next (.load v) s, rfl⟩, by decide⟩

/-- Settles O23: `exec_eq_next` for a register with a value; one without is O30's undefined case. -/
theorem feedTakesOneByte : Obligations.FeedTakesOneByte := by
  refine ⟨fun _ => decode_of_top_bits_feed, ?defined, ?undefined, by decide, by decide, by decide⟩
  case defined =>
    intro d s v hcrc
    rw [exec_eq_next, hcrc, crcAfter_feed_some]
  case undefined =>
    intro d s hcrc
    obtain ⟨-, -, hundefined⟩ := definedBitFollowsStarts
    obtain ⟨-, hfeed, hread⟩ := hundefined s ((State.not_defined_iff_crc_none s).mpr hcrc)
    exact ⟨hfeed d, hread⟩

/-- Settles O24: by the decoder's equation and `exec_eq_next`; the old register does not occur. -/
theorem loadFeedStartsAndFeeds : Obligations.LoadFeedStartsAndFeeds :=
  ⟨fun _ => decode_of_top_bits_loadFeed, fun v d s => ⟨exec_eq_next (.loadFeed v d) s, rfl⟩,
    by decide, by decide⟩

/-- Settles O25: `rst` alone selects RESET, and `exec_eq_next` gives the state after it. -/
theorem resetReturnsDefault : Obligations.ResetReturnsDefault :=
  ⟨fun _ => decode_of_rst, fun s => ⟨exec_eq_next .reset s, rfl⟩, by decide⟩

end Sys2Proof.Proofs

/-! The family of the host's hex decoder (41_host_hex_decoder.md): what is stripped, the three outcomes of decoding,
which characters are hex digits, and the bytes that their values make. First the lemmas, then the obligations. -/

namespace Sys2Proof.Proofs

open Sys2Proof.Machine

/-! ## Stripping (R121) -/

/-- Space, tab and newline by their code points. -/
theorem isStripped_iff_toNat (c : Char) :
    isStripped c = true ↔ c.toNat = 0x20 ∨ c.toNat = 0x09 ∨ c.toNat = 0x0A := by
  have hcode : ∀ d : Char, c = d ↔ c.toNat = d.toNat := fun d =>
    ⟨congrArg Char.toNat, fun h => Char.toNat_inj.mp h⟩
  rw [isStripped, Bool.or_eq_true, Bool.or_eq_true, beq_iff_eq, beq_iff_eq, beq_iff_eq, or_assoc,
    hcode, hcode, hcode]
  rfl

theorem mem_strip_iff {c : Char} {text : List Char} : c ∈ strip text ↔ c ∈ text ∧ isStripped c = false := by
  rw [strip, List.mem_filter, Bool.not_eq_true']

theorem strip_append (before after : List Char) : strip (before ++ after) = strip before ++ strip after :=
  List.filter_append before after

theorem strip_cons_of_isStripped {c : Char} (h : isStripped c = true) (text : List Char) :
    strip (c :: text) = strip text := by
  simp [strip, h]

theorem strip_eq_self {text : List Char} (h : ∀ c ∈ text, isStripped c = false) : strip text = text := by
  rw [strip, List.filter_eq_self]
  intro c hc
  rw [h c hc, Bool.not_false]

theorem strip_eq_nil {text : List Char} (h : ∀ c ∈ text, isStripped c = true) : strip text = [] := by
  rw [strip, List.filter_eq_nil_iff]
  intro c hc
  rw [h c hc]
  decide

/-- A stripped character may be taken out wherever it stands. -/
theorem strip_remove_stripped {c : Char} (h : isStripped c = true) (before after : List Char) :
    strip (before ++ c :: after) = strip (before ++ after) := by
  rw [strip_append, strip_cons_of_isStripped h, strip_append]

/-! ## The three outcomes of decoding (R122 to R125) -/

/-- The decoder sees the stripped text alone. -/
theorem hexDecode_congr {text text' : List Char} (h : strip text = strip text') :
    hexDecode text = hexDecode text' := by
  rw [hexDecode, hexDecode, h]

theorem hexDecode_of_odd {text : List Char} (h : (strip text).length % 2 = 1) :
    hexDecode text = .error .invalidLengthError := by
  simp only [hexDecode, if_pos h]

theorem hexDecode_of_nonHex {text : List Char} {c : Char} (heven : (strip text).length % 2 = 0)
    (hc : c ∈ strip text) (hbad : isHexChar c = false) : hexDecode text = .error .invalidCharacterError := by
  have hlen : ¬ (strip text).length % 2 = 1 := by omega
  have hall : ¬ (strip text).all isHexChar = true := fun h => by
    rw [List.all_eq_true.mp h c hc] at hbad
    exact Bool.noConfusion hbad
  simp only [hexDecode, if_neg hlen, if_neg hall]

theorem hexDecode_of_hex {text : List Char} (heven : (strip text).length % 2 = 0)
    (hhex : ∀ c ∈ strip text, isHexChar c = true) :
    hexDecode text = .ok (assembleBytes ((strip text).filterMap hexVal?)) := by
  have hlen : ¬ (strip text).length % 2 = 1 := by omega
  simp only [hexDecode, if_neg hlen, if_pos (List.all_eq_true.mpr hhex)]

/-- A character that is left after stripping and is no hex digit makes decoding fail, at either parity. -/
theorem exists_hexDecode_error_of_nonHex {text : List Char} {c : Char} (hc : c ∈ strip text)
    (hbad : isHexChar c = false) : ∃ e, hexDecode text = .error e := by
  rcases Nat.mod_two_eq_zero_or_one (strip text).length with heven | hodd
  · exact ⟨_, hexDecode_of_nonHex heven hc hbad⟩
  · exact ⟨_, hexDecode_of_odd hodd⟩

/-! ## Hex digits and their values (R123) -/

/-- The hex digits by their code points, the three ranges in the order of `hexVal?`. -/
theorem isHexChar_iff_toNat (c : Char) :
    isHexChar c = true ↔
      (0x30 ≤ c.toNat ∧ c.toNat ≤ 0x39) ∨ (0x61 ≤ c.toNat ∧ c.toNat ≤ 0x66) ∨
        (0x41 ≤ c.toNat ∧ c.toNat ≤ 0x46) := by
  have hbounds : '0'.toNat = 0x30 ∧ '9'.toNat = 0x39 ∧ 'a'.toNat = 0x61 ∧ 'f'.toNat = 0x66 ∧
      'A'.toNat = 0x41 ∧ 'F'.toNat = 0x46 := by decide
  obtain ⟨h0, h9, ha, hf, hA, hF⟩ := hbounds
  rw [isHexChar, hexVal?, h0, h9, ha, hf, hA, hF]
  split_ifs with hdigit hlower hupper
  · simp [hdigit]
  · simp [hlower]
  · simp [hupper]
  · simp [hdigit, hlower, hupper]

/-- Where every character is a hex digit, the values stand in the text's places. -/
theorem getElem?_filterMap_hexVal {cs : List Char} (h : ∀ c ∈ cs, isHexChar c = true) (j : Nat) :
    (cs.filterMap hexVal?)[j]? = cs[j]?.bind hexVal? := by
  induction cs generalizing j with
  | nil => rfl
  | cons c cs ih =>
    obtain ⟨hc, hcs⟩ := List.forall_mem_cons.mp h
    obtain ⟨v, hv⟩ := Option.isSome_iff_exists.mp hc
    rw [List.filterMap_cons_some hv]
    cases j with
    | zero => exact hv.symm
    | succ j => exact ih hcs j

theorem length_filterMap_hexVal {cs : List Char} (h : ∀ c ∈ cs, isHexChar c = true) :
    (cs.filterMap hexVal?).length = cs.length :=
  List.filterMap_length_eq_length.mpr h

/-- In a text of hex digits every place has a digit and a value. -/
theorem exists_hexVal_at {cs : List Char} (h : ∀ c ∈ cs, isHexChar c = true) {j : Nat} (hj : j < cs.length) :
    ∃ c v, cs[j]? = some c ∧ hexVal? c = some v ∧ (cs.filterMap hexVal?)[j]? = some v := by
  have hget : cs[j]? = some cs[j] := List.getElem?_eq_getElem hj
  obtain ⟨v, hv⟩ := Option.isSome_iff_exists.mp (h cs[j] (List.getElem_mem hj))
  refine ⟨cs[j], v, hget, hv, ?_⟩
  rw [getElem?_filterMap_hexVal h, hget, Option.bind_some, hv]

/-! ## Bytes from pairs of values (R125) -/

theorem length_assembleBytes : ∀ ns : List (BitVec 4), (assembleBytes ns).length = ns.length / 2
  | [] => rfl
  | [_] => by simp [assembleBytes]
  | hi :: lo :: rest => by
    rw [assembleBytes, List.length_cons, length_assembleBytes rest, List.length_cons, List.length_cons]
    omega

/-- Byte `i` is made of the values `2 * i` and `2 * i + 1`, the first the high nibble. -/
theorem getElem?_assembleBytes {ns : List (BitVec 4)} {i : Nat} {a b : BitVec 4} (ha : ns[2 * i]? = some a)
    (hb : ns[2 * i + 1]? = some b) : (assembleBytes ns)[i]? = some (a ++ b) := by
  induction i generalizing ns with
  | zero =>
    match ns, ha, hb with
    | hi :: lo :: rest, ha, hb =>
      obtain rfl : hi = a := Option.some.inj ha
      obtain rfl : lo = b := Option.some.inj hb
      rfl
  | succ i ih =>
    match ns, ha, hb with
    | hi :: lo :: rest, ha, hb => exact ih (ns := rest) ha hb

/-- A byte of two nibbles is read in base 16. -/
theorem toNat_append_nibbles (a b : BitVec 4) : (a ++ b : Byte).toNat = 16 * a.toNat + b.toNat := by
  rw [BitVec.toNat_append, ← Nat.shiftLeft_add_eq_or_of_lt b.isLt, Nat.shiftLeft_eq, Nat.mul_comm]

/-! ## The obligations -/

/-- Settles O48: a stripped character is dropped by the filter wherever it stands and the decoder sees the stripped
text alone; a character that is kept and is no hex digit fails at either parity. -/
theorem strippingRemovesOnlyThese : Obligations.StrippingRemovesOnlyThese := by
  have hkept : ∀ c : Char, c.toNat ≠ 0x20 → c.toNat ≠ 0x09 → c.toNat ≠ 0x0A → isStripped c = false := by
    intro c hspace htab hnewline
    rw [Bool.eq_false_iff, ne_eq, isStripped_iff_toNat]
    rintro (h | h | h) <;> contradiction
  refine ⟨?removed, ?kept, ?fails⟩
  case removed =>
    intro before after c hc
    have hstrip := strip_remove_stripped ((isStripped_iff_toNat c).mpr hc) before after
    exact ⟨hstrip, hexDecode_congr hstrip⟩
  case kept =>
    intro text h
    refine strip_eq_self fun c hc => ?_
    obtain ⟨hspace, htab, hnewline⟩ := h c hc
    exact hkept c hspace htab hnewline
  case fails =>
    intro text c hc hspace htab hnewline hbad
    exact exists_hexDecode_error_of_nonHex (mem_strip_iff.mpr ⟨hc, hkept c hspace htab hnewline⟩) hbad

/-- Settles O50: the ranges by `isHexChar_iff_toNat`, the sixteen values and the two cases by evaluation, the error
by the decoder's second outcome. -/
theorem nonHexCharacterIsTheCharacterError : Obligations.NonHexCharacterIsTheCharacterError :=
  ⟨isHexChar_iff_toNat, by decide, by decide, fun _ _ => hexDecode_of_nonHex⟩

/-- Settles O51: the digits `2 * i` and `2 * i + 1` have values, which stand in the same places of the list of
values, and `assembleBytes` joins these two into byte `i`. -/
theorem decodedBytesAreThePairs : Obligations.DecodedBytesAreThePairs := by
  intro text heven hhex
  have hlen : (assembleBytes ((strip text).filterMap hexVal?)).length = (strip text).length / 2 := by
    rw [length_assembleBytes, length_filterMap_hexVal hhex]
  refine ⟨_, hexDecode_of_hex heven hhex, hlen, fun i hlt => ?_⟩
  rw [hlen] at hlt
  obtain ⟨hi, a, hhi, ha, hna⟩ := exists_hexVal_at hhex (show 2 * i < (strip text).length by omega)
  obtain ⟨lo, b, hlo, hb, hnb⟩ := exists_hexVal_at hhex (show 2 * i + 1 < (strip text).length by omega)
  exact ⟨hi, lo, a, b, a ++ b, hhi, hlo, ha, hb, getElem?_assembleBytes hna hnb, toNat_append_nibbles a b⟩

/-- Settles O49: the length is checked before any character is. -/
theorem oddLengthIsTheLengthError : Obligations.OddLengthIsTheLengthError := fun _ => hexDecode_of_odd

/-- Settles O52: the empty stripped text decodes to no bytes, and a text of spaces, tabs and newlines strips to
it. -/
theorem blankTextIsTheEmptyMessage : Obligations.BlankTextIsTheEmptyMessage := by
  have hempty : ∀ text : List Char, strip text = [] → hexDecode text = .ok [] := fun text h =>
    hexDecode_congr (text' := []) h
  refine ⟨hempty, fun text h => hempty text (strip_eq_nil fun c hc => ?_)⟩
  rcases h c hc with rfl | rfl | rfl <;> rfl

end Sys2Proof.Proofs

/-! The exceptions family (60_exceptions.md): the fault of a read while the register holds no value. First the
lemmas about the recorded fault, then the obligation. -/

namespace Sys2Proof.Proofs

open Sys2Proof.Machine Sys2Proof.Safety

/-! ## The recorded fault (R143) -/

/-- READ and EXPECT are the two forms of a read. -/
theorem exists_readAction {a : HostAction} (h : a = .read ∨ ∃ x, a = .expect x) : ∃ e, a = readAction e := by
  rcases h with rfl | ⟨x, rfl⟩
  · exact ⟨none, rfl⟩
  · exact ⟨some x, rfl⟩

/-- No step clears the fault: only an undefined read writes it, and a power cycle leaves it as well. -/
theorem step_keeps_fault {s t : State} (hs : s.fault = some .undefinedCrc) (h : step s = .next t) :
    t.fault = some .undefinedCrc := by
  obtain ⟨-, rfl⟩ | ⟨_, _, _, -, -, rfl⟩ | ⟨_, _, _, -, -, rfl⟩ | ⟨_, _, -, -, rfl⟩ | ⟨_, -, rfl⟩ := step_cases h
  · exact hs -- the clock stands still
  · exact hs -- an edge
  · exact hs -- a read of a value
  · rfl -- a read without a value
  · exact hs -- a power cycle

theorem run_keeps_fault {k : Nat} {s t : State} (hs : s.fault = some .undefinedCrc) (h : run k s = .next t) :
    t.fault = some .undefinedCrc :=
  run_keeps (P := fun u => u.fault = some .undefinedCrc) (fun _ _ => step_keeps_fault) hs h

theorem validEnd_of_fault {s : State} {f : Fault} (h : s.fault = some f) : validEnd s = false := by
  simp [validEnd, h]

/-! ## The obligation -/

/-- Settles O35: the read's own step, the operations' frame, and the recorded fault as an invariant of every run. -/
theorem undefinedReadRecordsFault : Obligations.UndefinedReadRecordsFault := by
  refine ⟨?records, ?operations, ?runs, fun _ => validEnd_of_fault⟩
  case records =>
    intro s a rest hundefined ha hp
    obtain ⟨e, rfl⟩ := exists_readAction ha
    exact step_read_of_none hp ((State.not_defined_iff_crc_none s).mp hundefined)
  case operations =>
    intro i s hs
    exact ⟨_, exec_eq_next i s, hs⟩
  case runs =>
    intro k s t hs _ hrun
    exact run_keeps_fault hs hrun

end Sys2Proof.Proofs

/-! The family of reset and hazards (70_reset_and_hazards.md): `rst` held over edges, and what else could reset the
register. First the lemmas about the register, then the obligation. -/

namespace Sys2Proof.Proofs

open Sys2Proof.Machine Sys2Proof.Safety

/-! ## What resets the register (R160) -/

/-- RESETs, however many, leave in a register that is reset what it holds. -/
theorem crcAfterAll_of_all_reset {is : List Instr} (h : ∀ i ∈ is, i = .reset) :
    crcAfterAll is (some Config.resetValue) = some Config.resetValue := by
  induction is with
  | nil => rfl
  | cons i is ih =>
    obtain ⟨rfl, hrest⟩ := List.forall_mem_cons.mp h
    rw [crcAfterAll_cons, crcAfter_reset, ih hrest]

/-- A step writes the register only at an edge or when the power is lost; there is no asynchronous reset. -/
theorem step_crc_of_no_edge_no_powerCycle {s t : State} (h : step s = .next t)
    (hedge : ∀ p rest, s.pending ≠ .edge p :: rest) (hpower : ∀ rest, s.pending ≠ .powerCycle :: rest) :
    t.crc = s.crc := by
  obtain ⟨-, rfl⟩ | ⟨p, _, rest, hp, -, -⟩ | ⟨_, _, _, -, -, rfl⟩ | ⟨_, _, -, -, rfl⟩ | ⟨rest, hp, -⟩ :=
    step_cases h
  · rfl -- the clock stands still
  · exact absurd hp (hedge p rest)
  · rfl -- a read of a value
  · rfl -- a read without a value
  · exact absurd hp (hpower rest)

/-! ## The obligation -/

/-- Settles O40: every word with `rst` = 1 decodes to RESET, whose first edge gives the state of R31 and whose later
edges leave it; without an edge and without a loss of power every branch of `step_cases` keeps the register. -/
theorem holdingResetKeepsResetState : Obligations.HoldingResetKeepsResetState := by
  refine ⟨fun w ws s rest hrst hp => ?_, fun _ _ => step_crc_of_no_edge_no_powerCycle⟩
  obtain ⟨hw, hws⟩ := List.forall_mem_cons.mp hrst
  have hresets : ∀ i ∈ ws.map decode, i = .reset :=
    List.forall_mem_map.mpr fun x hx => decode_of_rst (hws x hx)
  constructor
  · rw [step_edge hp (samplePins_drivePins w), decode_of_rst hw]
    rfl
  · have hrun := run_edges hp
    rw [List.map_cons, crcAfterAll_cons, decode_of_rst hw, crcAfter_reset, crcAfterAll_of_all_reset hresets] at hrun
    exact hrun

end Sys2Proof.Proofs

/-! The operation word as a whole: encoding and decoding are inverse to each other, up to the bits that an operation
ignores (30_encoding.md sections 1 to 5). -/

namespace Sys2Proof.Proofs

open Sys2Proof.Machine

/-- Settles O1: `decode_encode`, of every operation, so that `wellFormed` shuts out nothing. -/
theorem encodeThenDecodeIsIdentity : Obligations.EncodeThenDecodeIsIdentity := fun i _ => decode_encode i

/-- Settles O2: the word's three parts are masked one by one (`joined_and`), each kept whole where the operation uses
it and cleared where not; of RESET's three control bits only the first is used. -/
theorem decodeThenEncodeClearsIgnoredBits : Obligations.DecodeThenEncodeClearsIgnoredBits := by
  intro w
  obtain ⟨c, v, d, rfl⟩ := exists_joined w
  have hcontrols : ∀ c : BitVec 3, c.getLsbD 2 = true ∧ c &&& 0b100#3 = 0b100#3 ∨
      c = 0b011#3 ∨ c = 0b010#3 ∨ c = 0b001#3 ∨ c = 0b000#3 := by decide
  have hv : v &&& 0xFFFF#16 = v := BitVec.and_allOnes
  have hd : d &&& 0xFF#8 = d := BitVec.and_allOnes
  have hv0 : v &&& 0#16 = 0#16 := BitVec.and_zero
  have hd0 : d &&& 0#8 = 0#8 := BitVec.and_zero
  have hmask := fun (c' : BitVec 3) v' d' => (Laws.RowMatch.joined_and c c' v v' d d').symm
  rw [decode_joined]
  rcases hcontrols c with ⟨hr, hand⟩ | rfl | rfl | rfl | rfl
  · rw [if_pos hr]
    exact .trans (by rw [hand, hv0, hd0]; rfl) (hmask 0b100#3 0#16 0#8)
  · exact .trans (by rw [hv, hd]; rfl) (hmask 0b111#3 0xFFFF#16 0xFF#8)
  · exact .trans (by rw [hv, hd0]; rfl) (hmask 0b111#3 0xFFFF#16 0#8)
  · exact .trans (by rw [hv0, hd]; rfl) (hmask 0b111#3 0#16 0xFF#8)
  · exact .trans (by rw [hv0, hd0]; rfl) (hmask 0b111#3 0#16 0#8)

/-- Settles O7: words and operations written out, by evaluation. -/
theorem specWordsDecode : Obligations.SpecWordsDecode := by
  unfold Obligations.SpecWordsDecode
  decide

end Sys2Proof.Proofs

/-! What the spec derives from the bit step and the byte step (40_crc_operations.md sections 1 and 4): the corner
cases, the inverse, the table, the closed form, the sixteen equations, and `compute` as a function of its initial
value, on its own result and in normal form. -/

namespace Sys2Proof.Proofs

open Sys2Proof.Machine

/-! ## The bit step -/

/-- Bit 15 after the step is `mix`, since nothing is shifted into it (R83 (c)). -/
theorem getLsbD_fifteen_step1 (r : Word) (b : Bool) : (step1 r b).getLsbD 15 = (r.getLsbD 0 ^^ b) := by
  rw [step1_getLsbD, poly_getLsbD, BitVec.getLsbD_of_ge r 16 le_rfl, Bool.false_xor]
  exact Bool.and_true _

/-- With `mix` = 1 the shifted bits are flipped at the places of the polynomial. -/
theorem step1_getLsbD_of_mix {r : Word} {b : Bool} (h : r.getLsbD 0 ≠ b) (i : Nat) :
    (step1 r b).getLsbD i = (r.getLsbD (i + 1) ^^ (i == 15 || i == 10 || i == 3)) := by
  rw [step1_getLsbD, poly_getLsbD, Bool.xor_iff_ne.mpr h, Bool.true_and]

/-- `unstep1` takes the polynomial away again if it was added, shifts back, and recovers bit 0 from `b` and `mix`. -/
theorem unstep1_step1 (r : Word) (b : Bool) : unstep1 (step1 r b) b = r := by
  have hupper : (if (r.getLsbD 0 ^^ b) then step1 r b ^^^ Config.poly else step1 r b) = r >>> 1 := by
    rw [step1_eq_xor]
    cases r.getLsbD 0 ^^ b <;> simp
  have hlow : (b ^^ (r.getLsbD 0 ^^ b)) = r.getLsbD 0 := by
    rw [Bool.xor_comm, Bool.xor_assoc, Bool.xor_self, Bool.xor_false]
  simp only [unstep1, getLsbD_fifteen_step1]
  rw [hupper, hlow]
  apply BitVec.eq_of_getLsbD_eq
  intro i hi
  cases i with
  | zero => simp
  | succ i => simp [hi, Nat.add_comm 1 i]

/-! ## The byte step's other forms: all agree with it once the register's low byte is joined to the data byte -/

theorem extractLsb'_low_zeroExtend (d : Byte) : (d.zeroExtend 16).extractLsb' 0 8 = d :=
  (BitVec.extractLsb'_setWidth_of_le (by decide)).trans BitVec.extractLsb'_eq_self

/-- The table's index is the XOR of the register's low byte and the data byte (R94). -/
theorem tableIndex_eq_toNat (r : Word) (d : Byte) : tableIndex r d = (r.extractLsb' 0 8 ^^^ d).toNat := by
  have hmask : ∀ x : Word, (x &&& 0x00FF#16).toNat = x.toNat % 2 ^ 8 := fun x =>
    (BitVec.toNat_and x _).trans (Nat.and_two_pow_sub_one_eq_mod x.toNat 8)
  have hd : d.toNat < 2 ^ 16 := d.isLt.trans (by decide)
  calc tableIndex r d
    _ = (r.toNat ^^^ d.toNat) % 2 ^ 8 := by
        rw [tableIndex, hmask, BitVec.toNat_xor, BitVec.toNat_setWidth, Nat.mod_eq_of_lt hd]
    _ = (r.extractLsb' 0 8 ^^^ d).toNat := by
        rw [Nat.xor_mod_two_pow, Nat.mod_eq_of_lt d.isLt, BitVec.toNat_xor, BitVec.extractLsb'_toNat,
          Nat.shiftRight_zero]

/-- Every entry of the spec's table, by evaluation (R94). -/
theorem getElem?_crcTable : ∀ x : Byte, crcTable[x.toNat]? = some (step8 0#16 x) := by
  decide +kernel

/-- `step8_split` for the closed form (R95). -/
theorem closedStep8_split (r : Word) (d : Byte) :
    closedStep8 r d = (r >>> 8) ^^^ closedStep8 0#16 (r.extractLsb' 0 8 ^^^ d) := by
  simp only [closedStep8, BitVec.extractLsb'_xor, extractLsb'_low_zeroExtend, BitVec.zero_ushiftRight,
    BitVec.zero_xor, BitVec.xor_assoc]

/-- The sixteen equations of R96 are the eight bit steps, each bit followed back to the register and the byte. -/
theorem parallelBits_eq_map_step8 (c : Word) (d : Byte) :
    parallelBits c d = (List.range 16).map (fun i => (step8 c d).getLsbD i) := by
  have hrange : List.range 16 = [0, 1, 2, 3, 4, 5, 6, 7, 8, 9, 10, 11, 12, 13, 14, 15] := by decide
  have hbeyond : ∀ j, 16 ≤ j → c.getLsbD j = false := fun j => BitVec.getLsbD_of_ge c j
  simp only [parallelBits, hrange, List.map_cons, List.map_nil, step8_eq_nested, step1_getLsbD, poly_getLsbD,
    hbeyond, Nat.reduceAdd, Nat.reduceBEq, Nat.reduceLeDiff, Bool.or_false, Bool.or_true, Bool.and_false,
    Bool.and_true, Bool.xor_false, Bool.false_xor]
  simp only [Bool.xor_assoc, Bool.xor_comm, Bool.xor_left_comm]

/-! ## `compute` and its initial value -/

/-- Equal bytes cancel, so the difference of two registers is fed zeros. -/
theorem compute_xor_compute (data : List Byte) (a b : Word) :
    compute data a ^^^ compute data b = compute (List.replicate data.length 0#8) (a ^^^ b) := by
  induction data generalizing a b with
  | nil => rfl
  | cons d data ih =>
    have hbyte : step8 (a ^^^ b) 0#8 = step8 a d ^^^ step8 b d := by rw [← step8_xor, BitVec.xor_self]
    rw [compute_cons, compute_cons, ih, ← hbyte, List.length_cons, List.replicate_succ, compute_cons]

/-- `unstep1` undoes a bit step, and the values of the register are finitely many. -/
theorem step1_bijective (b : Bool) : Function.Bijective (fun r => step1 r b) :=
  Finite.injective_iff_bijective.mp
    (Function.LeftInverse.injective (g := fun n => unstep1 n b) fun r => unstep1_step1 r b)

theorem bitSteps_bijective (k : Nat) (d : Byte) : Function.Bijective (fun r => bitSteps k r d) := by
  induction k with
  | zero => exact Function.bijective_id
  | succ k ih => exact (step1_bijective (d.getLsbD k)).comp ih

/-! ## The residue -/

/-- Feeding the register its own low byte shifts it. -/
theorem step8_low_byte (r : Word) : step8 r (r.extractLsb' 0 8) = r >>> 8 := by
  rw [step8_split, BitVec.xor_self, step8_zero, BitVec.xor_zero]

/-- Feeding the register its own two bytes, low byte first, empties it. -/
theorem step8_low_byte_high_byte (r : Word) :
    step8 (step8 r (r.extractLsb' 0 8)) (r.extractLsb' 8 8) = 0#16 := by
  have hlow : (r >>> 8).extractLsb' 0 8 = r.extractLsb' 8 8 := by
    apply BitVec.eq_of_getLsbD_eq
    intro i hi
    simp [hi]
  rw [step8_low_byte, ← hlow, step8_low_byte, ← BitVec.shiftRight_add]
  exact BitVec.ushiftRight_eq_zero le_rfl

/-! ## The normal form (R99) -/

/-- A byte fed is the same byte joined to the register and a zero byte fed. -/
theorem step8_eq_step8_xor_zero (r : Word) (d : Byte) : step8 r d = step8 (r ^^^ d.zeroExtend 16) 0#8 :=
  calc step8 r d
    _ = step8 (r ^^^ 0#16) (0#8 ^^^ d) := by rw [BitVec.xor_zero, BitVec.zero_xor]
    _ = step8 r 0#8 ^^^ step8 (d.zeroExtend 16) 0#8 := by rw [step8_xor, step8_zero_left]
    _ = step8 (r ^^^ d.zeroExtend 16) 0#8 := by rw [← step8_xor, BitVec.xor_self]

theorem reverse_xor {w : Nat} (x y : BitVec w) : (x ^^^ y).reverse = x.reverse ^^^ y.reverse := by
  apply BitVec.eq_of_getLsbD_eq
  intro i hi
  rw [BitVec.getLsbD_reverse, BitVec.getLsbD_xor, BitVec.getLsbD_reverse, BitVec.getLsbD_reverse, BitVec.getMsbD_xor]

theorem reverse_ushiftRight {w : Nat} (x : BitVec w) (n : Nat) : (x >>> n).reverse = x.reverse <<< n := by
  apply BitVec.eq_of_getLsbD_eq
  intro i hi
  rw [BitVec.getLsbD_reverse, BitVec.getMsbD_ushiftRight, BitVec.getLsbD_shiftLeft, BitVec.getLsbD_reverse]
  simp [hi]

theorem reverse_zeroExtend (d : Byte) : (d.zeroExtend 16).reverse = d.reverse.zeroExtend 16 <<< 8 := by
  revert d
  decide +kernel

/-- The right-shifting step, read with the bits reversed, is the left-shifting step. -/
theorem reverse_step1 (r : Word) : (step1 r false).reverse = msbStep1 r.reverse := by
  have hpoly : Config.poly.reverse = Config.normalPoly := by decide
  have hbit : r.reverse.getLsbD 15 = r.getLsbD 0 := by
    rw [BitVec.getLsbD_reverse, BitVec.getMsbD]
    rfl
  rw [step1_eq_xor, Bool.xor_false, reverse_xor, reverse_ushiftRight, msbStep1, hbit]
  cases r.getLsbD 0
  · exact BitVec.xor_zero
  · rw [if_pos rfl, if_pos rfl, hpoly]

theorem reverse_bitSteps_zero (k : Nat) (r : Word) : (bitSteps k r 0#8).reverse = msbSteps k r.reverse := by
  induction k with
  | zero => rfl
  | succ k ih => rw [bitSteps_succ, BitVec.getLsbD_zero, reverse_step1, ih, msbSteps]

theorem reverse_step8 (r : Word) (d : Byte) : (step8 r d).reverse = msbStep8 r.reverse d.reverse := by
  rw [step8_eq_step8_xor_zero, step8, reverse_bitSteps_zero, reverse_xor, reverse_zeroExtend]
  rfl

theorem reverse_compute (data : List Byte) (initial : Word) :
    (compute data initial).reverse = msbCompute (data.map BitVec.reverse) initial.reverse := by
  induction data generalizing initial with
  | nil => rfl
  | cons d data ih =>
    rw [compute_cons, ih, reverse_step8]
    rfl

/-! ## The obligations -/

/-- Settles O10: the bits after a step with `mix` = 1, at the three places of the polynomial and elsewhere; bit 15 and
the inverse by their lemmas; the values written out by evaluation. -/
theorem bitStepCorners : Obligations.BitStepCorners := by
  refine ⟨by decide, step8_zero, ?_, getLsbD_fifteen_step1, unstep1_step1, by decide, by decide⟩
  intro r b hmix i _
  rw [step1_getLsbD_of_mix hmix]
  split_ifs with h15 hflip
  · subst h15
    rw [BitVec.getLsbD_of_ge r _ (by decide)]
    rfl
  · rcases hflip with rfl | rfl <;> exact Bool.xor_true _
  · have hplace : (i == 15 || i == 10 || i == 3) = false := by simp [h15, not_or.mp hflip]
    rw [hplace, Bool.xor_false]

/-- Settles O12: the entries by evaluation, and `step8_split`, whose byte is the table's index. -/
theorem byteStepByTable : Obligations.ByteStepByTable := by
  refine ⟨by decide +kernel, fun i hi => ?_, fun r d => ⟨_, ?_, step8_split r d⟩⟩
  · have hentry := getElem?_crcTable (BitVec.ofNat 8 i)
    rwa [BitVec.toNat_ofNat, Nat.mod_eq_of_lt hi] at hentry
  · rw [tableIndex_eq_toNat]
    exact getElem?_crcTable _

/-- Settles O13: both forms split in the same way, and agree on the 256 bytes fed to the zero register. -/
theorem byteStepClosedForm : Obligations.ByteStepClosedForm := by
  have hbyte : ∀ x : Byte, step8 0#16 x = closedStep8 0#16 x := by decide +kernel
  intro r d
  rw [step8_split, closedStep8_split, hbyte]

/-- Settles O14: the list of the sixteen equations, read at one place. -/
theorem byteStepBitParallel : Obligations.ByteStepBitParallel := by
  intro c d i hi
  rw [parallelBits_eq_map_step8, List.getElem?_map, List.getElem?_range hi, Option.map_some]

/-- Settles O17: the byte step is linear, so equal bytes cancel. -/
theorem computeAffineInInitial : Obligations.ComputeAffineInInitial := compute_xor_compute

/-- Settles O18: a composition of byte steps, each a bijection. -/
theorem computeBijectiveInInitial : Obligations.ComputeBijectiveInInitial := by
  intro data
  induction data with
  | nil => exact Function.bijective_id
  | cons d data ih => exact ih.comp (bitSteps_bijective 8 d)

/-- Settles O19: the register is fed its own two bytes; high byte first, 0x34 from 0xFFFF leaves another value. -/
theorem residueIsZero : Obligations.ResidueIsZero := by
  constructor
  · intro data initial
    rw [compute_append]
    exact step8_low_byte_high_byte (compute data initial)
  · exact ⟨[0x34#8], 0xFFFF#16, by decide +kernel⟩

/-- Settles O20: `reverse_compute`, reversed once more. -/
theorem normalFormEquivalence : Obligations.NormalFormEquivalence := by
  refine ⟨by decide, fun data initial => ?_⟩
  rw [← reverse_compute, BitVec.reverse_reverse_eq]

end Sys2Proof.Proofs

/-! One operation and one step: what they write and what they leave (10_state.md section 1, 40_crc_operations.md
section 2, 60_exceptions.md sections 1 and 3, 70_reset_and_hazards.md sections 2 and 3). -/

namespace Sys2Proof.Proofs

open Sys2Proof.Machine Sys2Proof.Safety

/-! ## The register after operations -/

theorem crcAfterAll_isSome (is : List Instr) (c : Option Word) :
    (crcAfterAll is c).isSome = (c.isSome || is.any Instr.startsMessage) := by
  induction is generalizing c with
  | nil => exact (Bool.or_false _).symm
  | cons i is ih => rw [crcAfterAll_cons, ih, crcAfter_isSome, List.any_cons, Bool.or_assoc]

/-- A start reads nothing of the register, so what stood before it is gone (R163). -/
theorem crcAfterAll_start {i : Instr} (h : i.startsMessage = true) (before before' after : List Instr)
    (c c' : Option Word) : crcAfterAll (before ++ i :: after) c = crcAfterAll (before' ++ i :: after) c' := by
  rw [crcAfterAll_append, crcAfterAll_append, crcAfterAll_cons, crcAfterAll_cons, crcAfter_of_startsMessage h]

theorem crcAfter_of_op_nop {i : Instr} (h : i.op = .NOP) (c : Option Word) : crcAfter i c = c := by
  cases i with
  | nop => rfl
  | _ => cases h

/-- The operations that write the register are those that are no NOP. -/
theorem mem_writing_ops_iff (o : Op) : o ∈ [Op.RESET, Op.LOAD, Op.FEED, Op.LOAD_FEED] ↔ o ≠ .NOP := by
  cases o <;> decide

/-! ## A step at an edge -/

theorem step_edge_eq_exec {s : State} {p : Pins} {w : OpWord} {rest : List HostAction}
    (hp : s.pending = .edge p :: rest) (hw : samplePins p = some w) :
    step s = exec (decode w) { s with pending := rest } := by
  rw [step_edge hp hw, exec_eq_next]

/-! ## Valid ends and met assertions (R68, R93) -/

theorem validEnd_iff (s : State) : validEnd s = true ↔ (∃ v, s.crc = some v) ∧ s.fault = none := by
  rw [validEnd, Bool.and_eq_true, State.defined_iff_exists_crc, Option.isNone_iff_eq_none]

theorem validEnd_iff_of_crc {s : State} {v : Word} (h : s.crc = some v) : validEnd s = true ↔ s.fault = none := by
  rw [validEnd_iff]
  exact and_iff_right ⟨v, h⟩

theorem expectsMet_iff (s : State) :
    expectsMet s = true ↔ ∀ o ∈ s.observed, ∀ x, o.expected = some x → o.value = x := by
  simp only [expectsMet, List.all_eq_true, Option.all_eq_true, beq_iff_eq]
  exact ⟨fun h o ho x hx => (h o ho x hx).symm, fun h o ho x hx => (h o ho x hx).symm⟩

/-- A read adds its own assertion, if it makes one. -/
theorem expectsMet_read (s : State) (rest : List HostAction) (v : Word) (e : Option Word) :
    expectsMet { s with pending := rest, observed := s.observed ++ [⟨v, e⟩] } =
      (expectsMet s && e.all (· == v)) := by
  simp [expectsMet]

/-! ## The obligations -/

/-- Settles O28: `crcAfterAll_start`; the start among the operations makes the register defined. -/
theorem startForgetsOldMessage : Obligations.StartForgetsOldMessage := by
  intro before before' after i s s' hi
  refine ⟨_, _, execAll_eq_next _ s, execAll_eq_next _ s', crcAfterAll_start hi before before' after _ _, ?_⟩
  simp [State.defined, crcAfterAll_isSome, hi]

/-- Settles O29: of the five things a step can do, two write the register, and the edge of a NOP does not. -/
theorem crcIsWrittenOnlyByTheseEvents : Obligations.CrcIsWrittenOnlyByTheseEvents := by
  intro s t h hcrc
  obtain ⟨-, rfl⟩ | ⟨p, w, rest, hp, hw, rfl⟩ | ⟨_, _, _, -, -, rfl⟩ | ⟨_, _, -, -, rfl⟩ | ⟨rest, hp, rfl⟩ :=
    step_cases h
  · exact absurd rfl hcrc -- the clock stands still
  · exact .inl ⟨p, w, rest, hp, hw, (mem_writing_ops_iff _).mpr fun hop => hcrc (crcAfter_of_op_nop hop _)⟩
  · exact absurd rfl hcrc -- a read of a value
  · exact absurd rfl hcrc -- a read without a value
  · exact .inr ⟨rest, hp, rfl⟩

/-- Settles O26: both sides write the same value (`exec_eq_next`). -/
theorem loadFeedIsLoadThenFeed : Obligations.LoadFeedIsLoadThenFeed := by
  constructor
  · intro v d s
    rw [execAll_eq_next, exec_eq_next]
    rfl
  · intro s
    rw [exec_eq_next, exec_eq_next]
    rfl

/-- Settles O27: `exec_eq_next` names the one field that may differ. -/
theorem operationFrame : Obligations.OperationFrame := by
  intro i s t h
  rw [exec_eq_next] at h
  obtain rfl := Host.Outcome.next.inj h
  refine ⟨rfl, rfl, rfl, ?_, fun hcrc hop => hcrc (crcAfter_of_op_nop hop _)⟩
  rintro rfl
  rfl

/-- Settles O8: a mask other than 0 makes the ports unclean; with every mask 0 each port gives its level. -/
theorem uncleanInputIsRefused : Obligations.UncleanInputIsRefused := by
  intro s p rest hp
  constructor
  · intro hmask
    have hclean : p.clean = false := by
      simp only [Pins.clean, Port.clean, Bool.and_eq_false_iff, beq_eq_false_iff_ne, ne_eq]
      tauto
    refine ⟨samplePins_eq_none_of_not_clean hclean, ?_⟩
    rw [step_of_cons hp, perform, clockEdge_of_not_clean hclean]
  · intro hrst hload hvalid hinit hdata
    have hw : samplePins p =
        some (p.rst.level ++ p.initLoad.level ++ p.dataValid.level ++ p.initValue.level ++ p.data.level) := by
      simp [samplePins, samplePort, Port.clean, hrst, hload, hvalid, hinit, hdata]
    exact ⟨_, _, rfl, hw, step_edge_eq_exec hp hw, step_edge hp hw⟩

/-- Settles O31: an issued operation and a presented word are edges whose ports sample as driven. -/
theorem stepRunsDecodedInstruction : Obligations.StepRunsDecodedInstruction := by
  refine ⟨fun _ _ _ _ => step_edge_eq_exec, fun s i _ => ?_, fun s nbits w hbits _ => ?_⟩
  · rw [step_edge_eq_exec (rest := s.pending) rfl (samplePins_drivePins (encode i)), decode_encode]
  · rw [State.withFetchWord, Nat.mod_eq_of_lt hbits]
    exact step_edge_eq_exec rfl (samplePins_drivePins _)

/-- Settles O32: the step without an action and the step of a power cycle. -/
theorem stoppedClockHoldsAndPowerLossUndefines : Obligations.StoppedClockHoldsAndPowerLossUndefines :=
  ⟨fun _ => step_of_nil, fun _ _ => step_powerCycle⟩

/-- Settles O34: READ and EXPECT are `readAction` without and with the value asserted. -/
theorem readIsKeptByTheHost : Obligations.ReadIsKeptByTheHost := by
  intro s v a e rest hcrc ha hp
  obtain rfl : a = readAction e := by
    rcases ha with ⟨rfl, rfl⟩ | ⟨x, rfl, rfl⟩ <;> rfl
  exact step_read_of_some hp hcrc

/-- Settles O36: the two predicates by their characterisations, and each read by the state its step answers. -/
theorem validEndsAndMetExpectations : Obligations.ValidEndsAndMetExpectations := by
  refine ⟨validEnd_iff, expectsMet_iff, ?read, ?expect, ?undefined, rfl, rfl, rfl, rfl⟩
  case read =>
    intro s v rest hcrc hp
    refine ⟨_, step_read_of_some (e := none) hp hcrc, validEnd_iff_of_crc hcrc, ?_⟩
    rw [expectsMet_read, Option.all_none, Bool.and_true]
  case expect =>
    intro s v x rest hcrc hp
    refine ⟨_, step_read_of_some (e := some x) hp hcrc, validEnd_iff_of_crc hcrc, ?_⟩
    rw [expectsMet_read, Option.all_some, Bool.and_eq_true, beq_iff_eq, eq_comm (a := x)]
  case undefined =>
    intro s x rest hcrc hp
    exact ⟨_, step_read_of_none (e := some x) hp hcrc, rfl, validEnd_of_fault rfl, rfl⟩

end Sys2Proof.Proofs

/-! Runs: the host's duties as an invariant (41_host_hex_decoder.md section 3), and transactions
(40_crc_operations.md section 3, 30_encoding.md section 5, 70_reset_and_hazards.md section 2). -/

namespace Sys2Proof.Proofs

open Sys2Proof.Machine Sys2Proof.Safety

/-! ## The host's duties, one rule per kind of action (R131, R162, R166) -/

theorem hostKeepsDuties_iff (s : State) :
    hostKeepsDuties s = true ↔ s.fault = none ∧ readsDefined s.defined s.pending = true := by
  rw [hostKeepsDuties, Bool.and_eq_true, Option.isNone_iff_eq_none]

/-- An action of the host is an edge, a read of either form, or a power cycle. -/
theorem hostAction_cases (a : HostAction) :
    (∃ p, a = .edge p) ∨ (∃ e, a = readAction e) ∨ a = .powerCycle := by
  cases a with
  | edge p => exact .inl ⟨p, rfl⟩
  | read => exact .inr (.inl ⟨none, rfl⟩)
  | expect v => exact .inr (.inl ⟨some v, rfl⟩)
  | powerCycle => exact .inr (.inr rfl)

theorem readsDefined_edge_iff (defined : Bool) (p : Pins) (rest : List HostAction) :
    readsDefined defined (.edge p :: rest) = true ↔
      ∃ w, samplePins p = some w ∧ readsDefined (defined || (decode w).startsMessage) rest = true := by
  cases hw : samplePins p <;> simp [readsDefined, hw]

theorem readsDefined_readAction_iff (defined : Bool) (e : Option Word) (rest : List HostAction) :
    readsDefined defined (readAction e :: rest) = true ↔ defined = true ∧ readsDefined defined rest = true := by
  cases e <;> exact Bool.and_eq_true_iff

/-- A predicate under which every step answers a next state with the predicate again does so along every run. -/
theorem run_of_invariant {P : State → Prop} (hstep : ∀ s, P s → ∃ t, step s = .next t ∧ P t) (k : Nat) {s : State}
    (hs : P s) : ∃ t, run k s = .next t ∧ P t := by
  induction k generalizing s with
  | zero => exact ⟨s, rfl, hs⟩
  | succ k ih =>
    obtain ⟨u, hu, hPu⟩ := hstep s hs
    rw [run_succ_of_next hu]
    exact ih hPu

/-! ## The register after the operations of a transaction -/

/-- NOPs among the operations leave the register alone. -/
theorem crcAfterAll_filter_not_nop (is : List Instr) (c : Option Word) :
    crcAfterAll (is.filter (fun i => i.op != .NOP)) c = crcAfterAll is c := by
  induction is generalizing c with
  | nil => rfl
  | cons i is ih =>
    by_cases hop : i.op = .NOP
    · rw [List.filter_cons_of_neg (by simp [hop]), ih, crcAfterAll_cons, crcAfter_of_op_nop hop]
    · rw [List.filter_cons_of_pos (by simp [hop]), crcAfterAll_cons, ih, crcAfterAll_cons]

theorem crcAfterAll_crcOps (initial : Word) (data : List Byte) (c : Option Word) :
    crcAfterAll (crcOps initial data) c = some (compute data initial) := crcAfterAll_feeds data initial

theorem crcAfterAll_crcqOps (initial : Word) (first : Byte) (later : List Byte) (c : Option Word) :
    crcAfterAll (crcqOps initial first later) c = some (compute (first :: later) initial) :=
  crcAfterAll_feeds later (step8 initial first)

theorem crcAfterAll_reset_feeds (data : List Byte) (c : Option Word) :
    crcAfterAll (.reset :: data.map .feed) c = some (compute data 0xFFFF#16) := crcAfterAll_feeds data _

/-- FEEDs on a register without a value leave it so (R32). -/
theorem crcAfterAll_feeds_none (data : List Byte) : crcAfterAll (data.map .feed) none = none := by
  induction data with
  | nil => rfl
  | cons d data ih => exact ih

/-! ## A run, then a READ -/

theorem run_then_read {k : Nat} {s t : State} {v : Word} {rest : List HostAction} (h : run k s = .next t)
    (hp : t.pending = .read :: rest) (hcrc : t.crc = some v) :
    run (k + 1) s = .next { t with pending := rest, observed := t.observed ++ [⟨v, none⟩] } := by
  rw [run_add_of_next h, run_succ_of_next (step_read_of_some (e := none) hp hcrc), run_zero]

theorem issueLine_of_ok {l : Line} {actions : List HostAction} (h : expandLine l = .ok actions) (s : State) :
    s.issueLine l = { s with pending := s.pending ++ actions } := by
  simp [State.issueLine, h]

/-- A line that stands for operations, issued to an idle block with READ after it. -/
theorem run_line_then_read {l : Line} {is : List Instr} {s : State} {v : Word} (hidle : s.pending = [])
    (hl : expandLine l = .ok (is.map issueOp)) (hcrc : crcAfterAll is s.crc = some v) :
    run ((is.map issueOp).length + 1) ((s.issueLine l).issueLine .read) =
      .next { s with crc := some v, observed := s.observed ++ [⟨v, none⟩] } := by
  have hissued : (s.issueLine l).issueLine .read = { s with pending := is.map issueOp ++ [.read] } := by
    rw [issueLine_of_ok (l := .read) rfl, issueLine_of_ok hl, hidle]
    rfl
  have hrun := run_issued (s := { s with pending := is.map issueOp ++ [.read] }) rfl
  rw [hissued, List.length_map, run_then_read hrun rfl hcrc, hcrc, hidle]

/-! ## The obligations -/

/-- Settles O44: one case per kind of the next action; an edge defines the register exactly if its operation starts a
message (`crcAfter_isSome`), a read finds it defined, and a power cycle leaves the duties of an undefined one. -/
theorem hostDutiesAreAnInvariant : Obligations.HostDutiesAreAnInvariant := by
  intro s hs
  obtain ⟨hfault, hreads⟩ := (hostKeepsDuties_iff s).mp hs
  cases hp : s.pending with
  | nil => exact ⟨s, step_of_nil hp, hs⟩
  | cons a rest =>
    rw [hp] at hreads
    obtain ⟨p, rfl⟩ | ⟨e, rfl⟩ | rfl := hostAction_cases a
    · obtain ⟨w, hw, hrest⟩ := (readsDefined_edge_iff _ _ _).mp hreads
      refine ⟨_, step_edge hp hw, (hostKeepsDuties_iff _).mpr ⟨hfault, ?_⟩⟩
      rwa [State.defined, crcAfter_isSome]
    · obtain ⟨hdefined, hrest⟩ := (readsDefined_readAction_iff _ _ _).mp hreads
      obtain ⟨v, hcrc⟩ := (State.defined_iff_exists_crc s).mp hdefined
      exact ⟨_, step_read_of_some hp hcrc, (hostKeepsDuties_iff _).mpr ⟨hfault, hrest⟩⟩
    · exact ⟨_, step_powerCycle hp, (hostKeepsDuties_iff _).mpr ⟨hfault, hreads⟩⟩

/-- Settles O45: no fault is recorded there and no action is pending. -/
theorem resetMeetsHostDuties : Obligations.ResetMeetsHostDuties := (hostKeepsDuties_iff _).mpr ⟨rfl, rfl⟩

/-- Settles O46: O44 along the run; at power-on the duties are those of the pending actions alone. -/
theorem dutifulRunNeverFaults : Obligations.DutifulRunNeverFaults := by
  have hruns : ∀ (k : Nat) (s : State), hostKeepsDuties s = true → ∃ t, run k s = .next t ∧ t.fault = none := by
    intro k s hs
    obtain ⟨t, hrun, ht⟩ := run_of_invariant hostDutiesAreAnInvariant k hs
    obtain ⟨hfault, -⟩ := (hostKeepsDuties_iff t).mp ht
    exact ⟨t, hrun, hfault⟩
  exact ⟨hruns, fun k actions h => hruns k _ ((hostKeepsDuties_iff _).mpr ⟨rfl, h⟩)⟩

/-- Settles O42: the edges leave the register of their operations without the NOPs (`run_edges`), which each way to
start makes `compute`; then the read. -/
theorem transactionComputes : Obligations.TransactionComputes := by
  intro data initial ws s rest hstart hp
  have hcrc : crcAfterAll (ws.map decode) s.crc = some (compute data initial) := by
    rw [← crcAfterAll_filter_not_nop]
    rcases hstart with h | ⟨first, later, rfl, h⟩ | ⟨rfl, h⟩
    · rw [h, crcAfterAll_crcOps]
    · rw [h, crcAfterAll_crcqOps]
    · rw [h, crcAfterAll_reset_feeds]
  have hrun := run_edges hp
  rw [hcrc] at hrun
  exact ⟨_, run_then_read hrun rfl rfl, rfl, fun hfault => (validEnd_iff_of_crc rfl).mpr hfault⟩

/-- Settles O43: both lines expand to operations that leave `compute` in the register. -/
theorem pseudoOperationsCompute : Obligations.PseudoOperationsCompute := by
  intro init b bs s hidle hinit hbytes
  have hlong := expandLine_crc ((inRange_crc_iff init (b :: bs)).mpr ⟨hinit, hbytes⟩)
  have hshort := expandLine_crcq_cons ((inRange_crcq_iff init (b :: bs)).mpr ⟨hinit, hbytes⟩)
  refine ⟨_, _, hlong, hshort, ?_, ?_⟩
  · simp [crcOps, crcqOps]
  · rintro line actions (⟨rfl, rfl⟩ | ⟨rfl, rfl⟩)
    · exact run_line_then_read hidle hlong (crcAfterAll_crcOps _ _ _)
    · exact run_line_then_read hidle hshort (crcAfterAll_crcqOps _ _ _ _)

/-- Settles O47: the FEEDs run `compute` on from the value in the register, or find none. -/
theorem omittedStartConcatenates : Obligations.OmittedStartConcatenates := by
  intro data data' initial s rest hp
  have hissued : s.pending = (data'.map Instr.feed).map issueOp ++ rest := by
    rw [hp, List.map_map]
    rfl
  have hrun := run_issued hissued
  rw [List.length_map] at hrun
  constructor
  · intro hcrc
    rw [hrun, hcrc, crcAfterAll_feeds, compute_append]
  · intro hcrc
    rw [hrun, hcrc, crcAfterAll_feeds_none, ← hcrc]

end Sys2Proof.Proofs

/-! Text: bytes and results as hex digits (20_memory.md section 2, 41_host_hex_decoder.md section 2), printed operations
read back, and the lines that are refused (30_encoding.md section 5). -/

namespace Sys2Proof.Proofs

open Sys2Proof.Machine Sys2Proof.Safety

/-! ## Texts of hex digits -/

theorem exists_hexDigit_of_mem_hex2 {b : Byte} {c : Char} (h : c ∈ hex2 b) : ∃ n, c = hexDigit n := by
  rw [hex2, List.mem_pair] at h
  rcases h with h | h <;> exact ⟨_, h⟩

theorem exists_hexDigit_of_mem_hex4 {v : Word} {c : Char} (h : c ∈ hex4 v) : ∃ n, c = hexDigit n := by
  rcases List.mem_append.mp h with h | h <;> exact exists_hexDigit_of_mem_hex2 h

theorem exists_hexDigit_of_mem_hexText {data : List Byte} {c : Char} (h : c ∈ hexText data) :
    ∃ n, c = hexDigit n := by
  obtain ⟨b, -, hc⟩ := List.mem_flatMap.mp h
  exact exists_hexDigit_of_mem_hex2 hc

/-- The digits that are written are `0` to `9` and `A` to `F`. -/
theorem toNat_hexDigit (n : BitVec 4) :
    (0x30 ≤ (hexDigit n).toNat ∧ (hexDigit n).toNat ≤ 0x39) ∨
      (0x41 ≤ (hexDigit n).toNat ∧ (hexDigit n).toNat ≤ 0x46) := by
  revert n
  decide

theorem hexText_cons (d : Byte) (data : List Byte) :
    hexText (d :: data) = hexDigit (d.extractLsb' 4 4) :: hexDigit (d.extractLsb' 0 4) :: hexText data := rfl

theorem length_hexText (data : List Byte) : (hexText data).length = 2 * data.length := by
  induction data with
  | nil => rfl
  | cons d data ih => rw [hexText_cons, List.length_cons, List.length_cons, ih, List.length_cons, Nat.mul_succ]

/-- The values of the digits, in pairs, are the bytes again. -/
theorem assembleBytes_hexText (data : List Byte) : assembleBytes ((hexText data).filterMap hexVal?) = data := by
  induction data with
  | nil => rfl
  | cons d data ih =>
    have hbyte : (d.extractLsb' 4 4 ++ d.extractLsb' 0 4 : Byte) = d :=
      (BitVec.extractLsb'_append_extractLsb'_eq_extractLsb' rfl).trans BitVec.extractLsb'_eq_self
    rw [hexText_cons, List.filterMap_cons_some (hexVal?_hexDigit _), List.filterMap_cons_some (hexVal?_hexDigit _),
      assembleBytes, ih, hbyte]

/-! ## Lines of one operation (R68) -/

theorem expandLine_load {n : Nat} (h : n < 0x10000) : expandLine (.load n) = .ok [issueOp (.load (toWord n))] := by
  simp [expandLine, Line.inRange, isInit16, h]

theorem expandLine_expect {n : Nat} (h : n < 0x10000) : expandLine (.expect n) = .ok [.expect (toWord n)] := by
  simp [expandLine, Line.inRange, isInit16, h]

theorem expandLine_feed {n : Nat} (h : n < 0x100) : expandLine (.feed n) = .ok [issueOp (.feed (toByte n))] := by
  simp [expandLine, Line.inRange, isByte, h]

theorem expandLine_loadFeed {n b : Nat} (hn : n < 0x10000) (hb : b < 0x100) :
    expandLine (.loadFeed n b) = .ok [issueOp (.loadFeed (toWord n) (toByte b))] := by
  simp [expandLine, Line.inRange, isInit16, isByte, hn, hb]

theorem toByte_toNat (d : Byte) : toByte d.toNat = d := by
  rw [toByte, BitVec.ofNat_toNat, BitVec.setWidth_eq]

theorem toWord_toNat (v : Word) : toWord v.toNat = v := by
  rw [toWord, BitVec.ofNat_toNat, BitVec.setWidth_eq]

theorem expandLine_lineOfOp (i : Instr) : expandLine (lineOfOp i) = .ok [issueOp i] := by
  cases i with
  | nop => rfl
  | feed d => rw [lineOfOp, expandLine_feed d.isLt, toByte_toNat]
  | load v => rw [lineOfOp, expandLine_load v.isLt, toWord_toNat]
  | loadFeed v d => rw [lineOfOp, expandLine_loadFeed v.isLt d.isLt, toWord_toNat, toByte_toNat]
  | reset => rfl

/-! ## Reading literals and operands -/

theorem trimSpaces_space_cons (cs : List Char) : trimSpaces (' ' :: cs) = trimSpaces cs := rfl

theorem trimSpaces_of_no_space {cs : List Char} (h : ∀ c ∈ cs, c ≠ ' ') : trimSpaces cs = cs :=
  trimSpaces_of_ends (fun hhead => h _ (List.mem_of_head? hhead) rfl)
    (fun hlast => h _ (List.mem_of_getLast? hlast) rfl)

/-- The hexadecimal literal with these digits (R68). -/
def literal (digits : List Char) : List Char := '0' :: 'x' :: digits

theorem literal_ne_nil (ds : List Char) : literal ds ≠ [] := List.cons_ne_nil _ _

theorem ne_space_of_mem_literal {ds : List Char} (hds : ∀ c ∈ ds, ∃ n, c = hexDigit n) :
    ∀ c ∈ literal ds, c ≠ ' ' := by
  have hdigits : ∀ c ∈ ds, c ≠ ' ' := fun c hc => by
    obtain ⟨n, rfl⟩ := hds c hc
    exact hexDigit_ne_space n
  exact List.forall_mem_cons.mpr ⟨by decide, List.forall_mem_cons.mpr ⟨by decide, hdigits⟩⟩

theorem ne_comma_of_mem_literal {ds : List Char} (hds : ∀ c ∈ ds, ∃ n, c = hexDigit n) :
    ∀ c ∈ literal ds, c ≠ ',' := by
  have hdigits : ∀ c ∈ ds, c ≠ ',' := fun c hc => by
    obtain ⟨n, rfl⟩ := hds c hc
    exact hexDigit_ne_comma n
  exact List.forall_mem_cons.mpr ⟨by decide, List.forall_mem_cons.mpr ⟨by decide, hdigits⟩⟩

/-- A text that ends in a literal does not end in a space. -/
theorem getLast?_append_literal {ds : List Char} (hds : ∀ c ∈ ds, ∃ n, c = hexDigit n) (cs : List Char) :
    (cs ++ literal ds).getLast? ≠ some ' ' := by
  rw [List.getLast?_append_of_ne_nil _ (literal_ne_nil ds)]
  exact fun hlast => ne_space_of_mem_literal hds _ (List.mem_of_getLast? hlast) rfl

/-- A literal after a space is one part between commas, and trimmed it is the literal. -/
theorem space_literal_part {ds : List Char} (hds : ∀ c ∈ ds, ∃ n, c = hexDigit n) :
    (∀ c ∈ ' ' :: literal ds, c ≠ ',') ∧ trimSpaces (' ' :: literal ds) = literal ds := by
  constructor
  · exact List.forall_mem_cons.mpr ⟨by decide, ne_comma_of_mem_literal hds⟩
  · rw [trimSpaces_space_cons, trimSpaces_of_no_space (ne_space_of_mem_literal hds)]

theorem readLiterals_cons {part : List Char} {parts : List (List Char)} {n : Nat} {ns : List Nat}
    (hn : readLiteral (trimSpaces part) = some n) (hns : readLiterals parts = some ns) :
    readLiterals (part :: parts) = some (n :: ns) := by
  simp [readLiterals, hn, hns]

theorem readOperands_literal {ds : List Char} {n : Nat} (hds : ∀ c ∈ ds, ∃ k, c = hexDigit k)
    (hn : readLiteral (literal ds) = some n) : readOperands (' ' :: literal ds) = some [n] := by
  obtain ⟨hcomma, htrim⟩ := space_literal_part hds
  rw [readOperands, htrim, if_neg (literal_ne_nil ds), splitCommas_of_no_comma hcomma]
  exact readLiterals_cons (by rw [htrim, hn]) rfl

theorem readOperands_two_literals {ds es : List Char} {m n : Nat} (hds : ∀ c ∈ ds, ∃ k, c = hexDigit k)
    (hes : ∀ c ∈ es, ∃ k, c = hexDigit k) (hm : readLiteral (literal ds) = some m)
    (hn : readLiteral (literal es) = some n) :
    readOperands (' ' :: (literal ds ++ [',', ' '] ++ literal es)) = some [m, n] := by
  obtain ⟨hcomma, htrim⟩ := space_literal_part hds
  obtain ⟨hcomma', htrim'⟩ := space_literal_part hes
  have hne : trimSpaces (' ' :: (literal ds ++ [',', ' '] ++ literal es)) ≠ [] := by
    rw [trimSpaces_space_cons, trimSpaces_of_ends (by simp [literal]) (getLast?_append_literal hes _)]
    exact List.append_ne_nil_of_right_ne_nil _ (literal_ne_nil es)
  have hparts : ' ' :: (literal ds ++ [',', ' '] ++ literal es) =
      ' ' :: literal ds ++ ',' :: ' ' :: literal es := by simp
  rw [readOperands, if_neg hne, hparts, splitCommas_append hcomma, splitCommas_of_no_comma hcomma']
  exact readLiterals_cons (by rw [htrim, hm]) (readLiterals_cons (by rw [htrim', hn]) rfl)

/-- A mnemonic other than MSG, a space, and operands that end in a literal. -/
theorem parseLine_of_operands {m operands ds : List Char} (hm : m ≠ [] ∧ m ≠ ['M', 'S', 'G'] ∧ ∀ c ∈ m, c ≠ ' ')
    (hds : ∀ c ∈ ds, ∃ n, c = hexDigit n) :
    parseLine (m ++ ' ' :: (operands ++ literal ds)) =
      (readOperands (' ' :: (operands ++ literal ds))).bind (lineOf m) := by
  obtain ⟨hempty, hmsg, hspace⟩ := hm
  refine parseLine_of_parts hspace hmsg (trimSpaces_of_ends ?_ ?_)
  · rw [List.head?_append_of_ne_nil _ hempty]
    exact fun hhead => hspace _ (List.mem_of_head? hhead) rfl
  · have hlast := getLast?_append_literal hds (m ++ ' ' :: operands)
    rwa [List.append_assoc, List.cons_append] at hlast

theorem parseLine_printOp (i : Instr) : parseLine (printOp i) = some (lineOfOp i) := by
  have hdata : ∀ d : Byte, ∀ c ∈ hex2 d, ∃ n, c = hexDigit n := fun _ _ => exists_hexDigit_of_mem_hex2
  have hinit : ∀ v : Word, ∀ c ∈ hex4 v, ∃ n, c = hexDigit n := fun _ _ => exists_hexDigit_of_mem_hex4
  cases i with
  | nop => decide
  | feed d =>
    have hline := parseLine_of_operands (m := ['F', 'E', 'E', 'D']) (operands := []) (by simp) (hdata d)
    rw [List.nil_append, readOperands_literal (hdata d) (readLiteral_hex2 d)] at hline
    exact hline
  | load v =>
    have hline := parseLine_of_operands (m := ['L', 'O', 'A', 'D']) (operands := []) (by simp) (hinit v)
    rw [List.nil_append, readOperands_literal (hinit v) (readLiteral_hex4 v)] at hline
    exact hline
  | loadFeed v d =>
    have hline := parseLine_of_operands (m := ['L', 'O', 'A', 'D', '_', 'F', 'E', 'E', 'D'])
      (operands := literal (hex4 v) ++ [',', ' ']) (by simp) (hdata d)
    rw [readOperands_two_literals (hinit v) (hdata d) (readLiteral_hex4 v) (readLiteral_hex2 d)] at hline
    rw [List.append_assoc] at hline
    exact hline
  | reset => decide

/-! ## Refused lines (log entry 11) -/

theorem expandLine_of_not_inRange {l : Line} (h : l.inRange = false) : expandLine l = .error .outOfRange :=
  if_pos h

/-- What a line with its literals in range comes to: actions, or one of two errors. -/
theorem expandLine_cases {l : Line} (h : l.inRange = true) :
    (∃ actions, expandLine l = .ok actions ∧ l.hasItsByte = true ∧
      ∀ init text e, l = .msg init text → hexDecode text ≠ .error e) ∨
    (expandLine l = .error .noByte ∧ l.hasItsByte = false) ∨
    (∃ init text e, l = .msg init text ∧ hexDecode text = .error e ∧ expandLine l = .error (.hostError e)) := by
  have hin : ¬ l.inRange = false := Bool.not_eq_false _ ▸ h
  cases l with
  | crcq n bytes =>
    cases bytes with
    | nil => exact .inr (.inl ⟨if_neg hin, rfl⟩)
    | cons b bs => exact .inl ⟨_, if_neg hin, rfl, fun _ _ _ hl => by cases hl⟩
  | msg n text =>
    cases hd : hexDecode text with
    | ok data =>
      refine .inl ⟨_, expandLine_msg_of_ok h hd, rfl, ?_⟩
      rintro _ _ e ⟨⟩ he
      rw [hd] at he
      cases he
    | error e => exact .inr (.inr ⟨n, text, e, rfl, hd, expandLine_msg_of_error h hd⟩)
  | _ => exact .inl ⟨_, if_neg hin, rfl, fun _ _ _ hl => by cases hl⟩

theorem expandLine_eq_outOfRange_iff (l : Line) : expandLine l = .error .outOfRange ↔ l.inRange = false := by
  refine ⟨fun h => ?_, expandLine_of_not_inRange⟩
  by_contra hr
  obtain ⟨_, hl, -, -⟩ | ⟨hl, -⟩ | ⟨_, _, _, -, -, hl⟩ := expandLine_cases (Bool.eq_true_of_not_eq_false hr)
  all_goals rw [hl] at h; cases h

theorem exists_expandLine_error_iff (l : Line) :
    (∃ e, expandLine l = .error e) ↔
      l.wellFormed = false ∨ ∃ init text e, l = .msg init text ∧ hexDecode text = .error e := by
  cases hr : l.inRange with
  | false => exact iff_of_true ⟨_, expandLine_of_not_inRange hr⟩ (.inl (by rw [Line.wellFormed, hr, Bool.false_and]))
  | true =>
    obtain ⟨_, hl, hbyte, hmsg⟩ | ⟨hl, hbyte⟩ | ⟨init, text, e, hmsg, htext, hl⟩ := expandLine_cases hr
    · refine iff_of_false ?_ ?_
      · rintro ⟨e, he⟩
        rw [hl] at he
        cases he
      · rintro (hwf | ⟨init, text, e, hmsg', he⟩)
        · rw [Line.wellFormed, hr, hbyte] at hwf
          cases hwf
        · exact hmsg init text e hmsg' he
    · exact iff_of_true ⟨_, hl⟩ (.inl (by rw [Line.wellFormed, hbyte, Bool.and_false]))
    · exact iff_of_true ⟨_, hl⟩ (.inr ⟨init, text, e, hmsg, htext⟩)

theorem isInit16_eq_false_iff (n : Nat) : isInit16 n = false ↔ 0x10000 ≤ n := by simp [isInit16]

theorem isByte_eq_false_iff (n : Nat) : isByte n = false ↔ 0x100 ≤ n := by simp [isByte]

theorem all_isByte_eq_false_iff (bytes : List Nat) : bytes.all isByte = false ↔ ∃ b ∈ bytes, 0x100 ≤ b := by
  simp only [List.all_eq_false, Bool.not_eq_true, isByte_eq_false_iff]

/-- CRCQ without a byte: the range of the initial value is checked first. -/
theorem expandLine_crcq_nil_iff (n : Nat) : expandLine (.crcq n []) = .error .noByte ↔ n < 0x10000 := by
  by_cases hn : n < 0x10000
  · exact iff_of_true (if_neg (by simp [Line.inRange, isInit16, hn])) hn
  · refine iff_of_false (fun h => ?_) hn
    rw [expandLine_of_not_inRange (by simpa [Line.inRange, isInit16] using hn)] at h
    cases h

theorem inRange_msg_eq_inRange_crc (init : Nat) (text : List Char) (data : List Byte) :
    (Line.msg init text).inRange = (Line.crc init (data.map BitVec.toNat)).inRange := by
  have hbytes : (data.map BitVec.toNat).all isByte = true := by
    simpa [isByte] using fun b (_ : b ∈ data) => b.isLt
  rw [Line.inRange, Line.inRange, hbytes, Bool.and_true]

/-- A MSG whose text decodes stands for what CRC stands for with the bytes, out of range or not (R69). -/
theorem expandLine_msg_of_decoded {text : List Char} {data : List Byte} (init : Nat)
    (h : hexDecode text = .ok data) :
    expandLine (.msg init text) = expandLine (.crc init (data.map BitVec.toNat)) := by
  have hback : (data.map BitVec.toNat).map toByte = data := by simp [toByte_toNat, Function.comp_def]
  have hsame := inRange_msg_eq_inRange_crc init text data
  cases hr : (Line.msg init text).inRange with
  | false => rw [expandLine_of_not_inRange hr, expandLine_of_not_inRange (hsame ▸ hr)]
  | true => rw [expandLine_msg_of_ok hr h, expandLine_crc (hsame ▸ hr), hback]

/-! ## The obligations -/

/-- Settles O53: nothing is stripped, the length is even, every character is a digit, and the pairs are the bytes. -/
theorem hexTextDecodesToItsBytes : Obligations.HexTextDecodesToItsBytes := by
  intro data
  have hstrip : strip (hexText data) = hexText data := by
    refine strip_eq_self fun c hc => ?_
    obtain ⟨n, rfl⟩ := exists_hexDigit_of_mem_hexText hc
    exact isStripped_hexDigit n
  have hhex : ∀ c ∈ hexText data, isHexChar c = true := by
    intro c hc
    obtain ⟨n, rfl⟩ := exists_hexDigit_of_mem_hexText hc
    rw [isHexChar, hexVal?_hexDigit, Option.isSome_some]
  have heven : (hexText data).length % 2 = 0 := by rw [length_hexText, Nat.mul_mod_right]
  rw [hexDecode_of_hex (by rwa [hstrip]) (by rwa [hstrip]), hstrip, assembleBytes_hexText]

/-- Settles O55: reading back by `parseLine_printOp`, and the operands read are in range and give the operation's
own. -/
theorem printedOperationIsReadBack : Obligations.PrintedOperationIsReadBack := fun i =>
  ⟨parseLine_printOp i, expandLine_lineOfOp i⟩

/-- Settles O59: four digits, each in the ranges of `toNat_hexDigit`, whose value is `readHexDigits_hex4`. -/
theorem renderedResultReadsBack : Obligations.RenderedResultReadsBack := by
  refine ⟨fun v => ⟨rfl, ?_, rfl, fun c hc => ?_⟩, by decide⟩
  · have hread := readHexDigits_hex4 0 v []
    rwa [List.append_nil, Nat.mul_zero, Nat.zero_add] at hread
  · obtain ⟨n, rfl⟩ := exists_hexDigit_of_mem_hex4 hc
    exact toNat_hexDigit n

/-- Settles O58: one equation per line. -/
theorem singleLinesExpand : Obligations.SingleLinesExpand :=
  ⟨rfl, rfl, rfl, fun _ hn => ⟨expandLine_expect hn, expandLine_load hn, fun _ hb => expandLine_loadFeed hn hb⟩,
    fun _ hb => expandLine_feed hb⟩

/-- Settles O57: refusal is `exists_expandLine_error_iff`; the literals' ranges are `inRange` written out; the lines
without a literal expand by evaluation. -/
theorem onlyTheseLinesAreRefused : Obligations.OnlyTheseLinesAreRefused := by
  refine ⟨fun l => ⟨exists_expandLine_error_iff l, expandLine_of_not_inRange, fun _ => issueLine_of_error⟩,
    fun n => ?ranges, ?noLiteral⟩
  case ranges =>
    simp only [expandLine_eq_outOfRange_iff, Line.inRange, Bool.and_eq_false_iff, isInit16_eq_false_iff,
      isByte_eq_false_iff, all_isByte_eq_false_iff, true_and, implies_true]
    exact expandLine_crcq_nil_iff n
  case noLiteral =>
    rintro l e (rfl | rfl | rfl | ⟨k, rfl⟩) h <;> cases h

/-- Settles O54: an undecodable text is one of the refusals, and a decodable one stands for CRC's actions. -/
theorem refusedTextIssuesNothing : Obligations.RefusedTextIssuesNothing := by
  intro s init text
  constructor
  · intro e he
    obtain ⟨_, hrefused⟩ := (exists_expandLine_error_iff (.msg init text)).mpr (.inr ⟨init, text, e, rfl, he⟩)
    exact issueLine_of_error hrefused s
  · intro data hdata
    rw [State.issueLine, State.issueLine, expandLine_msg_of_decoded init hdata]

end Sys2Proof.Proofs
